-- ==== Sys2Proof/Word.lean ====
section
/-! DEFINITION. The one word type of the hardware: the byte (spec 00_scope.md R6, R8, R9). -/

namespace Sys2Proof

/-- A memory cell, a register, an opcode or an operand: 8 bits, unsigned, bit 0 the least
significant (R6, R8). -/
abbrev Byte := BitVec 8

end Sys2Proof
end

