-- ==== Sys2Proof/Config.lean ====
section
/-! DEFINITION. The parameters the spec leaves open (00_scope.md R7): the type of `OPCODE`, and the
free value behind `FAULT_EXIT_STATUS`. `REG_RESET` and `MEM_INIT` are arguments of
`Machine.State.launch`. -/

namespace Sys2Proof

/-- The ten mnemonics of the instruction table, in the table's order (00_scope.md R3). -/
inductive Op where
  | hlt
  | ldi
  | prn
  | mul
  | cmp
  | jmp
  | jeq
  | jne
  | push
  | pop
deriving DecidableEq, Repr

/-- The parameter `OPCODE`: an opcode byte for each mnemonic (R7). Which maps are legal is
`OpcodeMap.admissible` (30_encoding.md R76). -/
abbrev OpcodeMap := Op → Byte

namespace Config

/-- Free value, no body: the draw from which `FAULT_EXIT_STATUS` is made (log entry 11). -/
opaque faultExitDraw : Int

/-- `FAULT_EXIT_STATUS`: any nonzero integer (00_scope.md R7, 60_exceptions.md R223). A draw of 0
is read as 1, so that every nonzero status, and no other, is possible. -/
def faultExitStatus : Int := if faultExitDraw = 0 then 1 else faultExitDraw

end Config

end Sys2Proof
end

