-- ==== Sys2Proof/Syntax.lean ====
section
/-! DEFINITION. The instruction set as syntax: one constructor per row of spec/opcode_table.json, in
the table's order (00_scope.md R3). An operand is the whole raw byte the fetch reads (30_encoding.md
R73): `a` is the byte at `pc + 1`, `b` the byte at `pc + 2` (00_scope.md R12). -/

namespace Sys2Proof

/-- The ten instructions. How each uses its operand bytes is the table of 30_encoding.md R74. -/
inductive Instr where
  /-- HLT: stop the run (41_halt_and_data.md R130). -/
  | hlt
  /-- LDI: `a` register index and memory address, `b` immediate (R131). -/
  | ldi (a b : Byte)
  /-- PRN: `a` memory address (R132). -/
  | prn (a : Byte)
  /-- MUL: `a`, `b` memory addresses and register indices (42_alu.md R155). -/
  | mul (a b : Byte)
  /-- CMP: `a`, `b` memory addresses and register indices (R157). -/
  | cmp (a b : Byte)
  /-- JMP: `a` register index (43_jumps.md R170). -/
  | jmp (a : Byte)
  /-- JEQ: `a` register index (R171). -/
  | jeq (a : Byte)
  /-- JNE: `a` register index (R172). -/
  | jne (a : Byte)
  /-- PUSH: `a` memory address (44_stack.md R191). -/
  | push (a : Byte)
  /-- POP: `a` memory address (R192). -/
  | pop (a : Byte)
deriving DecidableEq, Repr

end Sys2Proof
end

