-- ==== Sys2Proof/WellFormed.lean ====
section
/-! DEFINITION. The well-formedness checks: of an instruction, and of a launch image. The check of the
parameter `OPCODE` is `OpcodeMap.admissible`, in Decode.lean beside the operand counts it reads. -/

namespace Sys2Proof

/-- Every term of `Instr` is a well-formed instruction: an operand is a raw byte, each of the 256
values of which is legal syntax (30_encoding.md R73). A register operand outside 0..7 is well formed
too: it is executed, and the access faults (10_state.md R24). -/
def Instr.wellFormed : Instr → Bool
  | .hlt => true
  | .ldi _ _ => true
  | .prn _ => true
  | .mul _ _ => true
  | .cmp _ _ => true
  | .jmp _ => true
  | .jeq _ => true
  | .jne _ => true
  | .push _ => true
  | .pop _ => true

/-- A launch image fits the 256 cells of memory (70_reset_and_hazards.md R241; longer loader input is
outside the block, 93_implementation_defined.md I15). -/
def imageWellFormed (image : List Byte) : Bool := decide (image.length ≤ 256)

end Sys2Proof
end

