-- ==== Sys2Proof/Decode.lean ====
section
/-! DEFINITION. The instruction decoder (40_execution_engine.md R106, R107, R115) and the encoder, both
written from the encoding tables of 30_encoding.md R71, R72, R78, over any opcode map `OPCODE`. -/

namespace Sys2Proof

/-- The program-counter classes of 40_execution_engine.md R108. -/
inductive PcClass where
  /-- The loop adds the instruction length (R109). -/
  | seq
  /-- The loop keeps the handler's `pc` (R110). -/
  | uncond
  /-- The loop adds the length only if the handler left `pc` unchanged (R111). -/
  | cond
deriving DecidableEq, Repr

/-- What the ALU can be asked for: the decoder's `alu_op` outputs (R115), ADD (42_alu.md R151), and any
other operation name, numbered (R154; log entry 15). -/
inductive AluOp where
  | none
  | add
  | mul
  | cmp
  | other (label : Nat)
deriving DecidableEq, Repr

/-- Why a byte sequence is no instruction. -/
inductive DecodeReject where
  /-- The opcode byte has no entry in the opcode table (30_encoding.md R79). -/
  | unknownOpcode (byte : Byte)
  /-- There is no opcode byte, or an operand byte is missing. Not reached by the machine, whose fetch
  always delivers three bytes (40_execution_engine.md R105). -/
  | truncated
deriving DecidableEq, Repr

/-- The operand count of each instruction (30_encoding.md R72). -/
def Op.operandCount : Op → Nat
  | .hlt => 0
  | .ldi => 2
  | .prn => 1
  | .mul => 2
  | .cmp => 2
  | .jmp => 1
  | .jeq => 1
  | .jne => 1
  | .push => 1
  | .pop => 1

/-- The instruction length, `1 + operand_count` (30_encoding.md R70). -/
def Op.length (op : Op) : Nat := 1 + op.operandCount

/-- The PC-advancement class of each operation (40_execution_engine.md R108). -/
def Op.pcClass : Op → PcClass
  | .hlt => .seq
  | .ldi => .seq
  | .prn => .seq
  | .mul => .seq
  | .cmp => .seq
  | .jmp => .uncond
  | .jeq => .cond
  | .jne => .cond
  | .push => .seq
  | .pop => .seq

/-- The decoder's `alu_op` output (40_execution_engine.md R115, 42_alu.md R150). -/
def Op.aluOp : Op → AluOp
  | .hlt => .none
  | .ldi => .none
  | .prn => .none
  | .mul => .mul
  | .cmp => .cmp
  | .jmp => .none
  | .jeq => .none
  | .jne => .none
  | .push => .none
  | .pop => .none

/-- Every mnemonic once, in the table's order (00_scope.md R3). -/
def Op.all : List Op := [.hlt, .ldi, .prn, .mul, .cmp, .jmp, .jeq, .jne, .push, .pop]

/-- The default opcode map, 30_encoding.md R78 (PRESUMED, log entry 1). -/
def defaultOpcodes : OpcodeMap
  | .hlt => 0x01
  | .ldi => 0x82
  | .prn => 0x47
  | .mul => 0xA2
  | .cmp => 0xA7
  | .jmp => 0x54
  | .jeq => 0x55
  | .jne => 0x56
  | .push => 0x45
  | .pop => 0x46

/-- The operand-count field `IR[7:6]` of an opcode byte (30_encoding.md R71, R106). -/
def countField (ir : Byte) : Nat := (ir.extractLsb' 6 2).toNat

/-- The two properties 30_encoding.md R76 requires of `OPCODE`: the bytes are distinct, and bits [7:6]
of each are its operand count. -/
def OpcodeMap.admissible (m : OpcodeMap) : Bool :=
  decide (Op.all.map m).Nodup && Op.all.all (fun op => countField (m op) == op.operandCount)

/-- The handler lookup: the operation whose opcode is the whole byte `ir`, if there is one
(30_encoding.md R79, 40_execution_engine.md R107). -/
def OpcodeMap.lookup (m : OpcodeMap) (ir : Byte) : Option Op := Op.all.find? (fun op => m op == ir)

/-- The instruction of an operation and its operand bytes; bytes that are not part of it are ignored
(30_encoding.md R71, R74). -/
def Op.assemble (op : Op) (a b : Byte) : Instr :=
  match op with
  | .hlt => .hlt
  | .ldi => .ldi a b
  | .prn => .prn a
  | .mul => .mul a b
  | .cmp => .cmp a b
  | .jmp => .jmp a
  | .jeq => .jeq a
  | .jne => .jne a
  | .push => .push a
  | .pop => .pop a

/-- The decoder over the three fetched bytes (40_execution_engine.md R105 to R107). -/
def decode (m : OpcodeMap) (ir a b : Byte) : Except DecodeReject Instr :=
  match m.lookup ir with
  | none => .error (.unknownOpcode ir)
  | some op => .ok (op.assemble a b)

/-- The decoder over a byte sequence: the first instruction and the bytes after it. -/
def decodeBytes (m : OpcodeMap) (bytes : List Byte) : Except DecodeReject (Instr × List Byte) :=
  match bytes with
  | [] => .error .truncated
  | ir :: rest =>
    match m.lookup ir with
    | none => .error (.unknownOpcode ir)
    | some op =>
      match op.operandCount, rest with
      | 0, rest => .ok (op.assemble 0 0, rest)
      | 1, a :: rest => .ok (op.assemble a 0, rest)
      | 2, a :: b :: rest => .ok (op.assemble a b, rest)
      | _, _ => .error .truncated

/-- The outputs of the decoder block (40_execution_engine.md R115). -/
structure DecoderOutputs where
  /-- `n = IR[7:6]`. -/
  count : Nat
  /-- `instr_len = 1 + n`. -/
  length : Nat
  /-- 1 iff `IR` is one of the ten opcode bytes. -/
  valid : Bool
  /-- `op`, `class` and `alu_op`, defined when `valid = 1`. -/
  operation : Option (Op × PcClass × AluOp)
deriving DecidableEq, Repr

/-- The decoder block as a function of the opcode byte alone (R115). -/
def decoderOutputs (m : OpcodeMap) (ir : Byte) : DecoderOutputs :=
  { count := countField ir
    length := 1 + countField ir
    valid := (m.lookup ir).isSome
    operation := (m.lookup ir).map (fun op => (op, op.pcClass, op.aluOp)) }

/-- The operation of an instruction. -/
def Instr.op : Instr → Op
  | .hlt => .hlt
  | .ldi _ _ => .ldi
  | .prn _ => .prn
  | .mul _ _ => .mul
  | .cmp _ _ => .cmp
  | .jmp _ => .jmp
  | .jeq _ => .jeq
  | .jne _ => .jne
  | .push _ => .push
  | .pop _ => .pop

/-- The operand bytes of an instruction, in address order (30_encoding.md R71). -/
def Instr.operands : Instr → List Byte
  | .hlt => []
  | .ldi a b => [a, b]
  | .prn a => [a]
  | .mul a b => [a, b]
  | .cmp a b => [a, b]
  | .jmp a => [a]
  | .jeq a => [a]
  | .jne a => [a]
  | .push a => [a]
  | .pop a => [a]

/-- The encoder: the opcode byte, then the operand bytes at ascending addresses (30_encoding.md R70,
R71). -/
def encode (m : OpcodeMap) (i : Instr) : List Byte := m i.op :: i.operands

/-- Byte `k` of an instruction's bits as spec/opcode_table.json numbers them: the first byte is bits
7..0; every bit from `nbits` up is 0. -/
def tableByte (nbits w k : Nat) : Byte := BitVec.ofNat 8 ((w % 2 ^ nbits) / 2 ^ (8 * k))

/-- What the decoder, under the default opcodes, reads from a row's word (the host's interface). -/
def decodeTableWord (nbits w : Nat) : Option Instr :=
  match decode defaultOpcodes (tableByte nbits w 0) (tableByte nbits w 1) (tableByte nbits w 2) with
  | .ok i => some i
  | .error _ => none

end Sys2Proof
end

