-- ==== Sys2Proof/Machine/State.lean ====
section
/-! DEFINITION. The state of the machine, all of it (10_state.md), the reasons a step can stop, and the
state after reset (10_state.md R40). -/

namespace Sys2Proof.Machine

/-- The memory `M` (10_state.md R20) as (address, byte) pairs, addresses strictly rising and below 256,
no entry equal to what an unlisted address reads as (`Memory.wf`). -/
abbrev Memory := List Host.Cell

/-- The flag register `fl` (10_state.md R27, R28; log entry 9). -/
inductive Flag where
  | none
  | equal
  | greater
  | less
deriving DecidableEq, Repr

/-- The run state (10_state.md R30). -/
inductive RunState where
  | running
  | halted
  | faulted
deriving DecidableEq, Repr

/-- The fault kinds (60_exceptions.md R210). -/
inductive FaultKind where
  | decodeError
  | aluError
  | memBounds
  | regBounds
deriving DecidableEq, Repr

/-- What is raised: the kind with its `info` (60_exceptions.md R210, R217). -/
inductive FaultCause where
  /-- The fetched opcode byte has no entry (R211). -/
  | decodeError (byte : Byte)
  /-- The ALU was asked for an operation it does not have (R214). -/
  | aluError (op : AluOp)
  /-- A memory access outside 0..255 (R212); the address may be -1. -/
  | memBounds (addr : Int)
  /-- A register index outside 0..7 (R213). -/
  | regBounds (index : Byte)
deriving DecidableEq, Repr

/-- The fault record (60_exceptions.md R217). Its `kind` and `code` are read off the cause
(`FaultRecord.kind`, `FaultRecord.code`; log entry 7). -/
structure FaultRecord where
  /-- Kind and info. -/
  cause : FaultCause
  /-- The address of the faulting instruction's opcode. -/
  pc : Nat
  /-- The byte fetched at `pc`; absent if the opcode fetch itself faulted. -/
  opcode : Option Byte
deriving DecidableEq, Repr

/-- The whole state of the core (10_state.md R20 to R32; nothing else exists, R35). -/
structure State where
  /-- Memory `M` (R20). -/
  mem : Memory
  /-- Registers `x[0..7]` (R21). -/
  regs : Vector Byte 8
  /-- Program counter, 0..256 (R25). -/
  pc : Nat
  /-- Stack pointer, 0..256 (R26). -/
  sp : Nat
  /-- Flag register (R27). -/
  fl : Flag
  /-- Instruction register (R29). -/
  ir : Byte
  /-- Run state (R30). -/
  runState : RunState
  /-- Fault record, empty unless FAULTED (R31). -/
  fault : Option FaultRecord
  /-- Output sequence, oldest byte first (R32). -/
  out : List Byte
deriving DecidableEq, Repr

/-- Why `step` answers no state. The spec's own fatal errors are NOT here: they are next states with
`runState = faulted` (log entry 6). -/
inductive Fault where
  /-- Raised by `step` alone, in HALTED, where no step exists (40_execution_engine.md R100, R101). Safe:
  the hardware does nothing more either. -/
  | runHalted
  /-- Raised by `step` alone, in FAULTED, where no step exists (R100, R101). Safe, for the same reason. -/
  | runFaulted
deriving DecidableEq, Repr

/-- Refusals. This hardware has no form without a meaning (40_execution_engine.md R118). -/
inductive Refusal where
  /-- Raised by an arm of `exec` whose instruction has no meaning yet; no arm is so. Safe: the model
  stops where the hardware goes on. -/
  | notModelled (mnemonic : String)
deriving DecidableEq, Repr

/-- The machine right after reset (10_state.md R40, 70_reset_and_hazards.md R240). DESIGN CHOICE: the
values of R0 to R6 (log entry 2), of memory (nothing listed; log entry 3) and of `ir` (log entry 4). -/
def State.reset : State :=
  { mem := []
    regs := #v[0, 0, 0, 0, 0, 0, 0, 0xF4]
    pc := 0
    sp := 0xF4
    fl := .none
    ir := 0
    runState := .running
    fault := none
    out := [] }

end Sys2Proof.Machine
end

