-- ==== Sys2Proof/Machine/Ops.lean ====
section
/-! DEFINITION. The named operations over memory, registers, output and faults (00_scope.md R11), the
fetch, the program-counter sequencer, taking a fault, and the launch of a run. -/

namespace Sys2Proof.Machine

/-- What an address that no entry lists reads as. DESIGN CHOICE (log entry 3): the spec leaves these
cells to the launch image. -/
def Memory.unlisted : Byte := 0

/-- The byte at an address. -/
def Memory.read : Memory → Nat → Byte
  | [], _ => Memory.unlisted
  | (k, v) :: m, a => if a = k then v else Memory.read m a

/-- Put one cell in front of a list of cells with higher addresses, unless it reads as unlisted. -/
def Memory.cons (a : Nat) (v : Byte) (m : Memory) : Memory :=
  if v = Memory.unlisted then m else (a, v) :: m

/-- Write one byte, keeping the canonical form. -/
def Memory.write : Memory → Nat → Byte → Memory
  | [], a, v => Memory.cons a v []
  | (k, w) :: m, a, v =>
    if a < k then Memory.cons a v ((k, w) :: m)
    else if a = k then Memory.cons a v m
    else (k, w) :: Memory.write m a v

/-- The canonical form from address `lo` up: addresses strictly rising, below 256 (10_state.md R20), no
entry equal to the unlisted byte. -/
def Memory.wfFrom (lo : Nat) : Memory → Bool
  | [] => true
  | (k, v) :: m => decide (lo ≤ k) && decide (k < 256) && decide (v ≠ Memory.unlisted) && Memory.wfFrom (k + 1) m

/-- The canonical form of memory. -/
def Memory.wf (m : Memory) : Bool := Memory.wfFrom 0 m

/-- An address outside 0..255 does not exist (20_memory.md R51). Addresses are integers, since
`sp - 1` may be -1. -/
def inMemory (addr : Int) : Bool := decide (0 ≤ addr) && decide (addr ≤ 255)

/-- `MemRead(addr, 1)` (00_scope.md R11). -/
def memRead (s : State) (addr : Int) : Except FaultCause Byte :=
  if inMemory addr then .ok (s.mem.read addr.toNat) else .error (.memBounds addr)

/-- `MemWrite(addr, 1, v)` (00_scope.md R11). -/
def memWrite (s : State) (addr : Int) (v : Byte) : Except FaultCause State :=
  if inMemory addr then .ok { s with mem := s.mem.write addr.toNat v } else .error (.memBounds addr)

/-- Reading `x[i]` (00_scope.md R11, 10_state.md R24). -/
def regRead (s : State) (i : Byte) : Except FaultCause Byte :=
  if h : i.toNat < 8 then .ok s.regs[i.toNat] else .error (.regBounds i)

/-- `x[i] <- v` (00_scope.md R11, 10_state.md R24). -/
def regWrite (s : State) (i v : Byte) : Except FaultCause State :=
  if h : i.toNat < 8 then .ok { s with regs := s.regs.set i.toNat v h } else .error (.regBounds i)

/-- `emit(v)`: append to the output sequence (00_scope.md R11, 60_exceptions.md R226). -/
def emit (s : State) (v : Byte) : State := { s with out := s.out ++ [v] }

/-- The kind of a cause (60_exceptions.md R210). -/
def FaultCause.kind : FaultCause → FaultKind
  | .decodeError _ => .decodeError
  | .aluError _ => .aluError
  | .memBounds _ => .memBounds
  | .regBounds _ => .regBounds

/-- The cause codes of 60_exceptions.md R210. -/
def FaultKind.code : FaultKind → Nat
  | .decodeError => 1
  | .aluError => 2
  | .memBounds => 3
  | .regBounds => 4

/-- The `kind` field of the record (60_exceptions.md R217). -/
def FaultRecord.kind (r : FaultRecord) : FaultKind := r.cause.kind

/-- The `code` field of the record (60_exceptions.md R217). -/
def FaultRecord.code (r : FaultRecord) : Nat := r.kind.code

/-- Taking a fault, the one shared operation (60_exceptions.md R215 to R217): `state <- FAULTED`, the
record is filled, and nothing else changes. `s` is the state before the faulting instruction. There is
no trap entry and no return from one (R220, R221). -/
def takeFault (s : State) (opcode : Option Byte) (cause : FaultCause) : State :=
  { s with runState := .faulted, fault := some { cause := cause, pc := s.pc, opcode := opcode } }

/-- The program-counter sequencer (40_execution_engine.md R116). -/
def nextPc (prePc postPc len : Nat) (c : PcClass) : Nat :=
  match c with
  | .seq => prePc + len
  | .uncond => postPc
  | .cond => if postPc = prePc then prePc + len else postPc

/-- The end of an instruction (40_execution_engine.md R102, R108): after a handler that completes the
loop applies the program-counter class; a handler that raised ends the step with the fault. `s` is the
state the handler started in; the opcode the record holds is the one fetched into `IR`. -/
def finish (op : Op) (s : State) (handled : Except FaultCause State) :
    Host.Outcome State Fault Refusal :=
  match handled with
  | .ok t => .next { t with pc := nextPc s.pc t.pc op.length op.pcClass }
  | .error cause => .next (takeFault s (some s.ir) cause)

/-- The fetch (40_execution_engine.md R104, R105): the opcode and both bytes after it, for every
instruction, in that order. A fault names the opcode byte if it was fetched (60_exceptions.md R217). -/
def fetch (s : State) : Except (Option Byte × FaultCause) (Byte × Byte × Byte) :=
  match memRead s (s.pc : Int) with
  | .error e => .error (none, e)
  | .ok ir =>
    match memRead s ((s.pc : Int) + 1) with
    | .error e => .error (some ir, e)
    | .ok a =>
      match memRead s ((s.pc : Int) + 2) with
      | .error e => .error (some ir, e)
      | .ok b => .ok (ir, a, b)

/-- The state an instruction's handler starts in: `IR` holds the fetched opcode (R104). -/
def latchIR (s : State) (ir : Byte) : State := { s with ir := ir }

/-- What the step adds after an instruction: if it raised, no effect of the step remains but `state`
and `fault`, so `IR` too is as before the step (40_execution_engine.md R102; log entry 5). -/
def afterExec (s : State) (o : Host.Outcome State Fault Refusal) : Host.Outcome State Fault Refusal :=
  match o with
  | .next t => .next (if t.runState = .faulted then { t with ir := s.ir } else t)
  | .fault r => .fault r
  | .refused r => .refused r

/-- The exit status of the run (60_exceptions.md R223): 0 after HALTED, a nonzero status after FAULTED,
none while it runs. -/
def State.exitStatus (s : State) : Option Int :=
  match s.runState with
  | .running => none
  | .halted => some 0
  | .faulted => some Config.faultExitStatus

/-- The bits of the flag register, E bit 0, G bit 1, L bit 2 (10_state.md R28; log entry 9). -/
def Flag.bits : Flag → BitVec 3
  | .none => 0b000
  | .equal => 0b001
  | .greater => 0b010
  | .less => 0b100

/-- Write a byte where the address exists, and nothing elsewhere: the loader's write, not an
instruction's. -/
def Memory.place (m : Memory) (a : Nat) (v : Byte) : Memory := if a < 256 then m.write a v else m

/-- Write bytes at ascending addresses from `base` (70_reset_and_hazards.md R241). -/
def Memory.load (m : Memory) (base : Nat) : List Byte → Memory
  | [] => m
  | v :: vs => (m.place base v).load (base + 1) vs

/-- The start of a run (70_reset_and_hazards.md R240): the loader has written the image `MEM_INIT` from
address 0, R0 to R6 hold the draw `REG_RESET`, and everything else has its reset value. Cells after the
end of a short image read as unlisted. -/
def State.launch (image : List Byte) (regReset : Vector Byte 7) : State :=
  { State.reset with mem := Memory.load [] 0 image, regs := regReset.push 0xF4 }

/-- Store the bytes of a row's word where the next fetch reads (host interface; log entry 16). -/
def placeWord (s : State) (nbits w : Nat) : State :=
  { s with mem := s.mem.load s.pc [tableByte nbits w 0, tableByte nbits w 1, tableByte nbits w 2] }

end Sys2Proof.Machine
end

