-- ==== Sys2Proof/Machine/Operands.lean ====
section
/-! DEFINITION. The operand forms (30_encoding.md R74): an operand byte as a memory address, as a
register index (checked by `regRead` and `regWrite`), as both, and as a register that holds the address
of a jump target. -/

namespace Sys2Proof.Machine

/-- An operand byte as a memory address: the byte itself, always in 0..255 (30_encoding.md R74). -/
def operandAddr (a : Byte) : Int := (a.toNat : Int)

/-- The address a PUSH stores to, `sp - 1`, not reduced (44_stack.md R190). -/
def pushAddr (s : State) : Int := (s.sp : Int) - 1

/-- The address a POP reads, `sp` (44_stack.md R192). -/
def popAddr (s : State) : Int := (s.sp : Int)

/-- `x[a] <- MemRead(a, 1)`: the copy of a memory cell into the register of the same number that MUL and
CMP make of each operand (42_alu.md R155, R157). -/
def copyCell (s : State) (a : Byte) : Except FaultCause State :=
  match memRead s (operandAddr a) with
  | .error e => .error e
  | .ok v => regWrite s a v

/-- The target of a jump, `MemRead(x[a], 1)` (43_jumps.md R170). -/
def jumpTarget (s : State) (a : Byte) : Except FaultCause Byte :=
  match regRead s a with
  | .error e => .error e
  | .ok p => memRead s (operandAddr p)

/-- `pc <- MemRead(x[a], 1)` (43_jumps.md R170). -/
def jumpTo (s : State) (a : Byte) : Except FaultCause State :=
  match jumpTarget s a with
  | .error e => .error e
  | .ok v => .ok { s with pc := v.toNat }

end Sys2Proof.Machine
end

