-- ==== Sys2Proof/Machine/Flags.lean ====
section
/-! DEFINITION. The one flag computation, and the ALU that makes it (42_alu.md R150 to R154), with the
conditions that read the flag register. -/

namespace Sys2Proof.Machine

/-- The outputs of the ALU: a result (absent for CMP) and a flag update (absent for ADD and MUL)
(42_alu.md R150). -/
structure AluOutput where
  result : Option Byte
  flag : Option Flag
deriving DecidableEq, Repr

/-- The unsigned compare of CMP (42_alu.md R153). -/
def compareFlag (x y : Byte) : Flag :=
  if y.toNat < x.toNat then .greater else if x.toNat = y.toNat then .equal else .less

/-- The ALU, a pure function (42_alu.md R150): ADD (R151), MUL (R152), CMP (R153), and the fatal error for
any other operation (R154). -/
def alu (op : AluOp) (x y : Byte) : Except FaultCause AluOutput :=
  match op with
  | .add => .ok { result := some (BitVec.ofNat 8 (x.toNat + y.toNat)), flag := none }
  | .mul => .ok { result := some (BitVec.ofNat 8 (x.toNat * y.toNat)), flag := none }
  | .cmp => .ok { result := none, flag := some (compareFlag x y) }
  | .none => .error (.aluError .none)
  | .other label => .error (.aluError (.other label))

/-- Write an ALU result, if there is one, to memory. -/
def storeResult (s : State) (addr : Int) (o : AluOutput) : Except FaultCause State :=
  match o.result with
  | some r => memWrite s addr r
  | none => .ok s

/-- Apply an ALU flag update, if there is one, to the flag register. -/
def updateFlag (s : State) (o : AluOutput) : State :=
  match o.flag with
  | some f => { s with fl := f }
  | none => s

/-- The condition of JEQ (43_jumps.md R171). -/
def equalHolds (s : State) : Bool := decide (s.fl = .equal)

/-- The condition of JNE (43_jumps.md R172): not the complement of JEQ's, since NONE meets neither. -/
def notEqualHolds (s : State) : Bool := decide (s.fl = .less) || decide (s.fl = .greater)

end Sys2Proof.Machine
end

