-- ==== Sys2Proof/Machine/Arithmetic.lean ====
section
/-! DEFINITION. MUL and CMP (42_alu.md). -/

namespace Sys2Proof.Machine

/-- What MUL and CMP do alike (R155, R157): copy both cells into the registers of the same numbers, `a`
first, then give the two registers to the ALU under the decoder's `alu_op`. -/
def copyAndCompute (op : Op) (a b : Byte) (s : State) : Except FaultCause (State × AluOutput) :=
  match copyCell s a with
  | .error e => .error e
  | .ok s1 =>
    match copyCell s1 b with
    | .error e => .error e
    | .ok s2 =>
      match regRead s2 a with
      | .error e => .error e
      | .ok x =>
        match regRead s2 b with
        | .error e => .error e
        | .ok y =>
          match alu op.aluOp x y with
          | .error e => .error e
          | .ok o => .ok (s2, o)

/-- The handler of MUL (R155): the product goes to `M[a]` only. -/
def handleMul (a b : Byte) (s : State) : Except FaultCause State :=
  match copyAndCompute .mul a b s with
  | .error e => .error e
  | .ok (t, o) => storeResult t (operandAddr a) o

/-- MUL (R155). -/
def execMul (a b : Byte) (s : State) : Host.Outcome State Fault Refusal :=
  finish .mul s (handleMul a b s)

/-- The handler of CMP (R157): the flag register takes the ALU's flag update. -/
def handleCmp (a b : Byte) (s : State) : Except FaultCause State :=
  match copyAndCompute .cmp a b s with
  | .error e => .error e
  | .ok (t, o) => .ok (updateFlag t o)

/-- CMP (R157). -/
def execCmp (a b : Byte) (s : State) : Host.Outcome State Fault Refusal :=
  finish .cmp s (handleCmp a b s)

end Sys2Proof.Machine
end

