-- ==== Sys2Proof/Machine/HaltData.lean ====
section
/-! DEFINITION. HLT, LDI and PRN (41_halt_and_data.md). -/

namespace Sys2Proof.Machine

/-- HLT (R130): `state <- HALTED`. -/
def execHlt (s : State) : Host.Outcome State Fault Refusal :=
  finish .hlt s (.ok { s with runState := .halted })

/-- The handler of LDI (R131): `x[a] <- b`, then `MemWrite(a, 1, b)`. -/
def handleLdi (a b : Byte) (s : State) : Except FaultCause State :=
  match regWrite s a b with
  | .error e => .error e
  | .ok s1 => memWrite s1 (operandAddr a) b

/-- LDI (R131). -/
def execLdi (a b : Byte) (s : State) : Host.Outcome State Fault Refusal :=
  finish .ldi s (handleLdi a b s)

/-- The handler of PRN (R132): `emit(MemRead(a, 1))`. -/
def handlePrn (a : Byte) (s : State) : Except FaultCause State :=
  match memRead s (operandAddr a) with
  | .error e => .error e
  | .ok v => .ok (emit s v)

/-- PRN (R132). -/
def execPrn (a : Byte) (s : State) : Host.Outcome State Fault Refusal :=
  finish .prn s (handlePrn a s)

end Sys2Proof.Machine
end

