-- ==== Sys2Proof/Machine/Jumps.lean ====
section
/-! DEFINITION. JMP, JEQ and JNE (43_jumps.md). Their program-counter classes are applied by `finish`. -/

namespace Sys2Proof.Machine

/-- JMP (R170). -/
def execJmp (a : Byte) (s : State) : Host.Outcome State Fault Refusal :=
  finish .jmp s (jumpTo s a)

/-- JEQ (R171): when the condition fails there is no register or memory access. -/
def execJeq (a : Byte) (s : State) : Host.Outcome State Fault Refusal :=
  finish .jeq s (if equalHolds s then jumpTo s a else .ok s)

/-- JNE (R172): when the condition fails there is no register or memory access. -/
def execJne (a : Byte) (s : State) : Host.Outcome State Fault Refusal :=
  finish .jne s (if notEqualHolds s then jumpTo s a else .ok s)

end Sys2Proof.Machine
end

