-- ==== Sys2Proof/Machine/Stack.lean ====
section
/-! DEFINITION. PUSH and POP, with the stack-pointer sequencer (44_stack.md R190). -/

namespace Sys2Proof.Machine

/-- Commit a new stack pointer (44_stack.md R190). It is set only after the memory access at it has
succeeded, so the value is never negative. -/
def setSp (s : State) (sp : Int) : State := { s with sp := sp.toNat }

/-- The handler of PUSH (R191): `M[a]` is read first, then written at `sp - 1`. -/
def handlePush (a : Byte) (s : State) : Except FaultCause State :=
  match memRead s (operandAddr a) with
  | .error e => .error e
  | .ok v =>
    match memWrite s (pushAddr s) v with
    | .error e => .error e
    | .ok t => .ok (setSp t (pushAddr s))

/-- PUSH (R191). -/
def execPush (a : Byte) (s : State) : Host.Outcome State Fault Refusal :=
  finish .push s (handlePush a s)

/-- The handler of POP (R192): the byte at `sp` goes to `M[a]`, then `sp` is incremented. -/
def handlePop (a : Byte) (s : State) : Except FaultCause State :=
  match memRead s (popAddr s) with
  | .error e => .error e
  | .ok v =>
    match memWrite s (operandAddr a) v with
    | .error e => .error e
    | .ok t => .ok (setSp t (popAddr s + 1))

/-- POP (R192). -/
def execPop (a : Byte) (s : State) : Host.Outcome State Fault Refusal :=
  finish .pop s (handlePop a s)

end Sys2Proof.Machine
end

