-- ==== Sys2Proof/Machine/Cycle.lean ====
section
/-! DEFINITION. The fetch-decode-execute cycle (40_execution_engine.md R102) over any opcode map. -/

namespace Sys2Proof.Machine

/-- One step under the opcode map `m` (R102). A step exists only in RUNNING (R101). The checks are in the
order of R114: the fetch, then the lookup, then the handler's own. -/
def cycle (m : OpcodeMap) (s : State) : Host.Outcome State Fault Refusal :=
  match s.runState with
  | .halted => .fault .runHalted
  | .faulted => .fault .runFaulted
  | .running =>
    match fetch s with
    | .error (opcode, cause) => .next (takeFault s opcode cause)
    | .ok (ir, a, b) =>
      match decode m ir a b with
      | .error _ => .next (takeFault s (some ir) (.decodeError ir))
      | .ok i => afterExec s (exec i (latchIR s ir))

end Sys2Proof.Machine
end

