-- ==== Sys2Proof/Machine/Step.lean ====
section
/-! DEFINITION. The step of the machine, under the default opcodes of 30_encoding.md R78 (log entry 1),
and the host's way to place an instruction. -/

namespace Sys2Proof.Machine

/-- One step (40_execution_engine.md R102). -/
def step (s : State) : Host.Outcome State Fault Refusal := cycle defaultOpcodes s

/-- `s` with a row's word stored where the next fetch reads (log entry 16). -/
def State.withFetchWord (s : State) (nbits w : Nat) : State := placeWord s nbits w

end Sys2Proof.Machine
end

