-- ==== Sys2Proof/Safety.lean ====
section
/-! DEFINITION. The terms in which claims speak of runs: the invariant of the machine, a run of some
steps, and the ways a run ends. -/

namespace Sys2Proof.Machine

/-- The invariant every step keeps: memory in its canonical form (10_state.md R20), `pc` and `sp` in
0..256 (R25, R26), and a fault record exactly in FAULTED (R31). -/
structure MachineInv (s : State) : Prop where
  mem_wf : s.mem.wf = true
  pc_le : s.pc ≤ 256
  sp_le : s.sp ≤ 256
  fault_iff : s.fault.isSome = true ↔ s.runState = .faulted

/-- `n` steps under the opcode map `m` lead from `s` to `t`. -/
def Runs (m : OpcodeMap) : Nat → State → State → Prop
  | 0, s, t => t = s
  | n + 1, s, t => ∃ u, cycle m s = .next u ∧ Runs m n u t

/-- The operation a step in `s` dispatches to, if it gets so far: the fetch of all three bytes succeeds and
the opcode byte at `pc` has an entry (40_execution_engine.md R105, R107). -/
def opAt (m : OpcodeMap) (s : State) : Option Op :=
  if s.pc ≤ 253 then m.lookup (s.mem.read s.pc) else none

/-- The instruction a step in `s` runs, if it gets so far. -/
def instrAt (m : OpcodeMap) (s : State) : Option Instr :=
  (opAt m s).map (fun op => op.assemble (s.mem.read (s.pc + 1)) (s.mem.read (s.pc + 2)))

/-- `n` steps from `s` to `t` in which no step dispatches to an operation of the list `avoided`. -/
def RunsAvoiding (m : OpcodeMap) (avoided : List Op) : Nat → State → State → Prop
  | 0, s, t => t = s
  | n + 1, s, t =>
    (∀ op ∈ avoided, opAt m s ≠ some op) ∧ ∃ u, cycle m s = .next u ∧ RunsAvoiding m avoided n u t

/-- A normal end of a run is HALTED; FAULTED never counts as one (60_exceptions.md R215). -/
def EndsNormally (m : OpcodeMap) (s t : State) : Prop := ∃ n, Runs m n s t ∧ t.runState = .halted

/-- A run aborted by a fatal error (60_exceptions.md R215). -/
def EndsAbnormally (m : OpcodeMap) (s t : State) : Prop := ∃ n, Runs m n s t ∧ t.runState = .faulted

end Sys2Proof.Machine
end

