-- ==== Sys2Proof/Certificates/Slice0/Obligations.lean ====
section
/-! DEFINITION. The statements for the provers. Each docstring names the rule or section of spec/ that it
formalises, and says where a clause rests on a decision of the spec or a choice of the model. -/

open Sys2Proof Sys2Proof.Machine

/-! ### Encoding -/

/-- Under the default opcodes (30_encoding.md R78, PRESUMED, log entry 1) the map is admissible, each opcode
byte with any two bytes after it is the instruction of its row, and the bytes R80, R81 and 95_test_vectors.md
V-DEC name as unbound are rejected. -/
def Obligations.DecodeSampleEncodings : Prop :=
  defaultOpcodes.admissible = true ∧
  (∀ a b : Byte,
    decode defaultOpcodes 0x01 a b = .ok .hlt ∧
    decode defaultOpcodes 0x82 a b = .ok (.ldi a b) ∧
    decode defaultOpcodes 0x47 a b = .ok (.prn a) ∧
    decode defaultOpcodes 0xA2 a b = .ok (.mul a b) ∧
    decode defaultOpcodes 0xA7 a b = .ok (.cmp a b) ∧
    decode defaultOpcodes 0x54 a b = .ok (.jmp a) ∧
    decode defaultOpcodes 0x55 a b = .ok (.jeq a) ∧
    decode defaultOpcodes 0x56 a b = .ok (.jne a) ∧
    decode defaultOpcodes 0x45 a b = .ok (.push a) ∧
    decode defaultOpcodes 0x46 a b = .ok (.pop a)) ∧
  (∀ a b ir : Byte, ir ∈ ([0x00, 0x02, 0x11, 0x50, 0xA0, 0xC0, 0xFF] : List Byte) →
    decode defaultOpcodes ir a b = .error (.unknownOpcode ir))

/-- Under every admissible `OPCODE` (R76), decoding the encoding of any instruction, with anything after it,
gives the instruction back and leaves what came after (R70, R71, R79). -/
def Obligations.DecodeEncodeAgree : Prop :=
  ∀ m : OpcodeMap, m.admissible = true → ∀ i : Instr, i.wellFormed = true → ∀ rest : List Byte,
    decodeBytes m (encode m i ++ rest) = .ok (i, rest)

/-- Under every opcode map, whatever bytes decode to an instruction are its encoding followed by the rest, so
no bit of an encoding is ignored (R70, R71, R79). -/
def Obligations.EncodeDecodeAgree : Prop :=
  ∀ (m : OpcodeMap) (bytes rest : List Byte) (i : Instr),
    decodeBytes m bytes = .ok (i, rest) → encode m i ++ rest = bytes

/-- The decoder over the three fetched bytes reads the same instruction as the decoder over a byte sequence:
bytes that are not part of the instruction are ignored (R71). -/
def Obligations.FetchedBytesDecodeAlike : Prop :=
  ∀ (m : OpcodeMap) (ir a b : Byte) (i : Instr),
    decode m ir a b = .ok i ↔ ∃ rest, decodeBytes m [ir, a, b] = .ok (i, rest)

/-- Under every admissible `OPCODE` a byte is accepted exactly if it is one of the ten opcodes, and the other
246 byte values are rejected (R79). -/
def Obligations.ExactlyTenBytesAreOpcodes : Prop :=
  ∀ m : OpcodeMap, m.admissible = true →
    (∀ ir a b : Byte, (∃ i, decode m ir a b = .ok i) ↔ ∃ op, m op = ir) ∧
    (∀ ir a b : Byte, (¬∃ op, m op = ir) → decode m ir a b = .error (.unknownOpcode ir)) ∧
    ((List.range 256).filter (fun n => (m.lookup (BitVec.ofNat 8 n)).isNone)).length = 246

/-- Every byte with bits [7:6] = 0b11 is illegal under every admissible `OPCODE` (R80, which the spec derives
from R78 and R79). -/
def Obligations.TopBitsThreeAreIllegal : Prop :=
  ∀ m : OpcodeMap, m.admissible = true → ∀ ir a b : Byte, 192 ≤ ir.toNat →
    decode m ir a b = .error (.unknownOpcode ir)

/-- The outputs of the decoder block (R115): the top two bits as `n`, `instr_len = 1 + n`, `valid` exactly on
the ten opcode bytes, and `op`, `class`, `alu_op` there. -/
def Obligations.DecoderBlockOutputs : Prop :=
  ∀ m : OpcodeMap, m.admissible = true → ∀ ir : Byte,
    (decoderOutputs m ir).count = ir.toNat / 64 ∧
    (decoderOutputs m ir).length = 1 + ir.toNat / 64 ∧
    ((decoderOutputs m ir).valid = true ↔ ∃ op, m op = ir) ∧
    ∀ op, m op = ir → ∃ c k, (decoderOutputs m ir).operation = some (op, c, k) ∧
      (c = .uncond ↔ op = .jmp) ∧ (c = .cond ↔ op = .jeq ∨ op = .jne) ∧
      (c = .seq ↔ op ≠ .jmp ∧ op ≠ .jeq ∧ op ≠ .jne) ∧
      (k = .mul ↔ op = .mul) ∧ (k = .cmp ↔ op = .cmp) ∧ (k = .none ↔ op ≠ .mul ∧ op ≠ .cmp)

/-! ### ALU -/

/-- ALU MUL: the product modulo 256 and no flag update; the exact product is at most 65025 (R152). -/
def Obligations.AluMultiplies : Prop :=
  ∀ x y : Byte, ∃ r : Byte, alu .mul x y = .ok { result := some r, flag := none } ∧
    r.toNat = x.toNat * y.toNat % 256 ∧ x.toNat * y.toNat ≤ 65025

/-- ALU CMP: no result, and exactly one of GREATER, EQUAL, LESS by the unsigned comparison (R153). -/
def Obligations.AluCompares : Prop :=
  ∀ x y : Byte, ∃ f : Flag, alu .cmp x y = .ok { result := none, flag := some f } ∧
    (f = .greater ↔ y.toNat < x.toNat) ∧ (f = .equal ↔ x.toNat = y.toNat) ∧
    (f = .less ↔ x.toNat < y.toNat) ∧ f ≠ .none

/-- ALU ADD: the sum modulo 256 and no flag update, and no operation selects it (R151; that ADD stays in the
ALU is the spec's decision D23). -/
def Obligations.AluAddsButNothingSelectsAdd : Prop :=
  (∀ x y : Byte, ∃ r : Byte, alu .add x y = .ok { result := some r, flag := none } ∧
    r.toNat = (x.toNat + y.toNat) % 256) ∧
  ∀ op : Op, op.aluOp ≠ .add

/-- Any other operation given to the ALU is the fatal `AluError`, and no step of any program raises it (R154,
R214; D23; the numbering of other operations is log entry 15). -/
def Obligations.AluErrorIsRaisedByNoProgram : Prop :=
  (∀ (op : AluOp) (x y : Byte), op ≠ .add → op ≠ .mul → op ≠ .cmp → alu op x y = .error (.aluError op)) ∧
  ∀ (m : OpcodeMap) (s t : State) (r : FaultRecord), cycle m s = .next t → s.fault = none →
    t.fault = some r → r.kind ≠ .aluError

/-! ### The instructions -/

/-- HLT enters HALTED and leaves memory, registers, `sp`, `fl`, `out`, `ir` and the fault record unchanged
(41_halt_and_data.md). The final `pc` is left open, as 93_implementation_defined.md I12 asks. -/
def Obligations.HltHalts : Prop :=
  ∀ s : State, ∃ t, exec .hlt s = .next t ∧ t.runState = .halted ∧ t.mem = s.mem ∧ t.regs = s.regs ∧
    t.sp = s.sp ∧ t.fl = s.fl ∧ t.out = s.out ∧ t.ir = s.ir ∧ t.fault = s.fault

/-- LDI writes the immediate to the register and to the memory cell of the same number, moves `pc` by 3, and
changes nothing else; an index above 7 raises RegBounds with no other effect (R131, with R11 and R213 for what
a raise does and records). -/
def Obligations.LdiMeaning : Prop :=
  ∀ (a b : Byte) (s : State),
    (∀ h : a.toNat < 8, exec (.ldi a b) s = .next
      { s with regs := s.regs.set a.toNat b h, mem := s.mem.write a.toNat b, pc := s.pc + 3 }) ∧
    (8 ≤ a.toNat → exec (.ldi a b) s = .next
      { s with runState := .faulted, fault := some { cause := .regBounds a, pc := s.pc, opcode := some s.ir } })

/-- PRN appends `M[a]` to the output for every operand byte, moves `pc` by 2, and changes nothing else (R132). -/
def Obligations.PrnMeaning : Prop :=
  ∀ (a : Byte) (s : State),
    exec (.prn a) s = .next { s with out := s.out ++ [s.mem.read a.toNat], pc := s.pc + 2 }

/-- MUL copies both cells into the registers of the same numbers and writes the product modulo 256 to `M[a]`
only; an index above 7, `a` checked first, raises RegBounds with no other effect (R155). -/
def Obligations.MulMeaning : Prop :=
  ∀ (a b : Byte) (s : State),
    (∀ (ha : a.toNat < 8) (hb : b.toNat < 8), ∃ r : Byte,
      r.toNat = (s.mem.read a.toNat).toNat * (s.mem.read b.toNat).toNat % 256 ∧
      exec (.mul a b) s = .next
        { s with regs := (s.regs.set a.toNat (s.mem.read a.toNat) ha).set b.toNat (s.mem.read b.toNat) hb,
                 mem := s.mem.write a.toNat r, pc := s.pc + 3 }) ∧
    (8 ≤ a.toNat → exec (.mul a b) s = .next
      { s with runState := .faulted, fault := some { cause := .regBounds a, pc := s.pc, opcode := some s.ir } }) ∧
    (a.toNat < 8 → 8 ≤ b.toNat → exec (.mul a b) s = .next
      { s with runState := .faulted, fault := some { cause := .regBounds b, pc := s.pc, opcode := some s.ir } })

/-- CMP copies both cells into the registers of the same numbers and sets `fl` by the unsigned comparison, with
memory unchanged; an index above 7, `a` checked first, raises RegBounds with no other effect (R157). -/
def Obligations.CmpMeaning : Prop :=
  ∀ (a b : Byte) (s : State),
    (∀ (ha : a.toNat < 8) (hb : b.toNat < 8), ∃ f : Flag,
      (f = .greater ↔ (s.mem.read b.toNat).toNat < (s.mem.read a.toNat).toNat) ∧
      (f = .equal ↔ (s.mem.read a.toNat).toNat = (s.mem.read b.toNat).toNat) ∧
      (f = .less ↔ (s.mem.read a.toNat).toNat < (s.mem.read b.toNat).toNat) ∧ f ≠ .none ∧
      exec (.cmp a b) s = .next
        { s with regs := (s.regs.set a.toNat (s.mem.read a.toNat) ha).set b.toNat (s.mem.read b.toNat) hb,
                 fl := f, pc := s.pc + 3 }) ∧
    (8 ≤ a.toNat → exec (.cmp a b) s = .next
      { s with runState := .faulted, fault := some { cause := .regBounds a, pc := s.pc, opcode := some s.ir } }) ∧
    (a.toNat < 8 → 8 ≤ b.toNat → exec (.cmp a b) s = .next
      { s with runState := .faulted, fault := some { cause := .regBounds b, pc := s.pc, opcode := some s.ir } })

/-- JMP sets `pc` to the byte in the cell that the register points to, and changes nothing else; an index above
7 raises RegBounds with no other effect (R170). -/
def Obligations.JmpMeaning : Prop :=
  ∀ (a : Byte) (s : State),
    (∀ h : a.toNat < 8, exec (.jmp a) s = .next
      { s with pc := (s.mem.read (s.regs[a.toNat]'h).toNat).toNat }) ∧
    (8 ≤ a.toNat → exec (.jmp a) s = .next
      { s with runState := .faulted, fault := some { cause := .regBounds a, pc := s.pc, opcode := some s.ir } })

/-- JEQ: when `fl` is EQUAL it jumps as JMP does, except that a target equal to its own address falls through to
the next instruction; otherwise it moves `pc` by 2 whatever its operand; RegBounds only when `fl` is EQUAL
(R171, with the loop's rule R111). -/
def Obligations.JeqMeaning : Prop :=
  ∀ (a : Byte) (s : State),
    (s.fl ≠ .equal → exec (.jeq a) s = .next { s with pc := s.pc + 2 }) ∧
    (s.fl = .equal → ∀ h : a.toNat < 8,
      ((s.mem.read (s.regs[a.toNat]'h).toNat).toNat ≠ s.pc →
        exec (.jeq a) s = .next { s with pc := (s.mem.read (s.regs[a.toNat]'h).toNat).toNat }) ∧
      ((s.mem.read (s.regs[a.toNat]'h).toNat).toNat = s.pc →
        exec (.jeq a) s = .next { s with pc := s.pc + 2 })) ∧
    (s.fl = .equal → 8 ≤ a.toNat → exec (.jeq a) s = .next
      { s with runState := .faulted, fault := some { cause := .regBounds a, pc := s.pc, opcode := some s.ir } })

/-- JNE: as JEQ, under the condition that `fl` is LESS or GREATER; with NONE it does not jump (R172, with the
loop's rule R111). -/
def Obligations.JneMeaning : Prop :=
  ∀ (a : Byte) (s : State),
    (s.fl = .equal ∨ s.fl = .none → exec (.jne a) s = .next { s with pc := s.pc + 2 }) ∧
    (s.fl = .less ∨ s.fl = .greater → ∀ h : a.toNat < 8,
      ((s.mem.read (s.regs[a.toNat]'h).toNat).toNat ≠ s.pc →
        exec (.jne a) s = .next { s with pc := (s.mem.read (s.regs[a.toNat]'h).toNat).toNat }) ∧
      ((s.mem.read (s.regs[a.toNat]'h).toNat).toNat = s.pc →
        exec (.jne a) s = .next { s with pc := s.pc + 2 })) ∧
    (s.fl = .less ∨ s.fl = .greater → 8 ≤ a.toNat → exec (.jne a) s = .next
      { s with runState := .faulted, fault := some { cause := .regBounds a, pc := s.pc, opcode := some s.ir } })

/-- PUSH writes `M[a]` to `M[sp - 1]`, decrements `sp`, moves `pc` by 2 and changes nothing else, registers
included, for every operand byte; with `sp = 0` it raises MemBounds(-1) with no other effect (R191). `sp` is at
most 256 by the invariant. -/
def Obligations.PushMeaning : Prop :=
  ∀ (a : Byte) (s : State),
    (1 ≤ s.sp → s.sp ≤ 256 → exec (.push a) s = .next
      { s with mem := s.mem.write (s.sp - 1) (s.mem.read a.toNat), sp := s.sp - 1, pc := s.pc + 2 }) ∧
    (s.sp = 0 → exec (.push a) s = .next
      { s with runState := .faulted, fault := some { cause := .memBounds (-1), pc := s.pc, opcode := some s.ir } })

/-- POP writes `M[sp]` to `M[a]`, increments `sp`, moves `pc` by 2 and changes nothing else, registers included,
for every operand byte; with `sp = 256` it raises MemBounds(256) with no other effect (R192). -/
def Obligations.PopMeaning : Prop :=
  ∀ (a : Byte) (s : State),
    (s.sp ≤ 255 → exec (.pop a) s = .next
      { s with mem := s.mem.write a.toNat (s.mem.read s.sp), sp := s.sp + 1, pc := s.pc + 2 }) ∧
    (s.sp = 256 → exec (.pop a) s = .next
      { s with runState := .faulted, fault := some { cause := .memBounds 256, pc := s.pc, opcode := some s.ir } })

/-! ### Frames -/

/-- The storing instructions change one byte of memory at most: LDI, MUL and POP the one their first operand
byte addresses, PUSH the one at `sp - 1` (20_memory.md, the table of writes). -/
def Obligations.StoringFormsWriteOneByte : Prop :=
  (∀ (a b : Byte) (s t : State), exec (.ldi a b) s = .next t →
    ∀ x : Nat, (x : Int) ≠ operandAddr a → t.mem.read x = s.mem.read x) ∧
  (∀ (a b : Byte) (s t : State), exec (.mul a b) s = .next t →
    ∀ x : Nat, (x : Int) ≠ operandAddr a → t.mem.read x = s.mem.read x) ∧
  (∀ (a : Byte) (s t : State), exec (.pop a) s = .next t →
    ∀ x : Nat, (x : Int) ≠ operandAddr a → t.mem.read x = s.mem.read x) ∧
  (∀ (a : Byte) (s t : State), exec (.push a) s = .next t →
    ∀ x : Nat, (x : Int) ≠ pushAddr s → t.mem.read x = s.mem.read x)

/-- HLT, PRN, CMP, JMP, JEQ and JNE store nothing: every byte of memory reads as before (20_memory.md, the table
of writes). -/
def Obligations.OtherFormsKeepMemory : Prop :=
  ∀ (i : Instr) (s t : State), i.op ∈ [Op.hlt, .prn, .cmp, .jmp, .jeq, .jne] → exec i s = .next t →
    ∀ x : Nat, t.mem.read x = s.mem.read x

/-- LDI changes no register but the one its first operand names, MUL and CMP none but the two their operands
name, and the other instructions none (10_state.md, the table of register writes). -/
def Obligations.RegisterFrame : Prop :=
  (∀ (a b : Byte) (s t : State), exec (.ldi a b) s = .next t →
    ∀ j (h : j < 8), j ≠ a.toNat → t.regs[j]'h = s.regs[j]'h) ∧
  (∀ (a b : Byte) (s t : State), exec (.mul a b) s = .next t ∨ exec (.cmp a b) s = .next t →
    ∀ j (h : j < 8), j ≠ a.toNat → j ≠ b.toNat → t.regs[j]'h = s.regs[j]'h) ∧
  (∀ (i : Instr) (s t : State), i.op ∈ [Op.hlt, .prn, .jmp, .jeq, .jne, .push, .pop] → exec i s = .next t →
    t.regs = s.regs)

/-- Only PUSH and POP change `sp`, only CMP changes `fl`, only PRN changes `out`, none changes `ir`, and the run
state and fault record change only by HLT, which halts, or by a fault, which records the instruction's address
and opcode (10_state.md R26, R27, R32; the record is the spec's decision D6). -/
def Obligations.SpecialStateFrame : Prop :=
  ∀ (i : Instr) (s t : State), exec i s = .next t →
    (i.op ≠ .push → i.op ≠ .pop → t.sp = s.sp) ∧
    (i.op ≠ .cmp → t.fl = s.fl) ∧
    (i.op ≠ .prn → t.out = s.out) ∧
    t.ir = s.ir ∧
    ((t.runState = s.runState ∧ t.fault = s.fault) ∨
     (i = .hlt ∧ t.runState = .halted ∧ t.fault = s.fault) ∨
     (t.runState = .faulted ∧ ∃ c, t.fault = some { cause := c, pc := s.pc, opcode := some s.ir }))

/-- A sequential instruction that completes moves `pc` by its length, `1 + operand_count`, not reduced modulo 256
(40_execution_engine.md, the SEQ class). HLT, of the same class, is left out: its final `pc` is open (I12). -/
def Obligations.SequentialInstructionsAdvanceByLength : Prop :=
  ∀ (i : Instr) (s t : State), i.op ∈ [Op.ldi, .prn, .mul, .cmp, .push, .pop] → exec i s = .next t →
    t.runState ≠ .faulted → t.pc = s.pc + (1 + i.operands.length)

/-- R7 and `sp` are independent after reset, where both are 0xF4: LDI, MUL and CMP of any register leave `sp`,
PUSH and POP leave R7, and LDI writes R7 as it writes any register (10_state.md). -/
def Obligations.RegisterSevenIsNotTheStackPointer : Prop :=
  (∀ (image : List Byte) (r : Vector Byte 7),
    (State.launch image r).regs[7] = 0xF4 ∧ (State.launch image r).sp = 0xF4) ∧
  (∀ (a b : Byte) (s t : State),
    exec (.ldi a b) s = .next t ∨ exec (.mul a b) s = .next t ∨ exec (.cmp a b) s = .next t → t.sp = s.sp) ∧
  (∀ (a : Byte) (s t : State), exec (.push a) s = .next t ∨ exec (.pop a) s = .next t →
    t.regs[7] = s.regs[7]) ∧
  (∀ (b : Byte) (s : State), ∃ t, exec (.ldi 7 b) s = .next t ∧ t.regs[7] = b ∧ t.sp = s.sp)

/-! ### The cycle -/

/-- Under every opcode map, in RUNNING with all three bytes in memory, when they decode to an instruction the
step is that instruction's `exec` on the state whose `ir` holds the opcode byte; if it raised, `ir` is put back
(log entry 5). The machine's `step` is the cycle under the default opcodes. -/
def Obligations.StepRunsDecodedInstruction : Prop :=
  (∀ s : State, step s = cycle defaultOpcodes s) ∧
  ∀ (m : OpcodeMap) (s : State) (i : Instr), s.runState = .running → s.pc ≤ 253 →
    decode m (s.mem.read s.pc) (s.mem.read (s.pc + 1)) (s.mem.read (s.pc + 2)) = .ok i →
    ∃ t, exec i { s with ir := s.mem.read s.pc } = .next t ∧
      cycle m s = .next (if t.runState = .faulted then { t with ir := s.ir } else t)

/-- A step exists exactly in RUNNING, it always answers a state there, and the machine never refuses (R101 and
R118; that no step exists in HALTED and FAULTED is answered as a fault, log entry 6). -/
def Obligations.StepsExistExactlyWhileRunning : Prop :=
  ∀ (m : OpcodeMap) (s : State),
    (s.runState = .running ↔ ∃ t, cycle m s = .next t) ∧
    (s.runState = .halted → cycle m s = .fault .runHalted) ∧
    (s.runState = .faulted → cycle m s = .fault .runFaulted) ∧
    ∀ r, cycle m s ≠ .refused r

/-- The states of the engine (R100): a run starts in RUNNING with `pc = 0`; a step ends in HALTED exactly when it
runs HLT; it ends in FAULTED exactly when it raised a fault, that is, filled the empty fault record; neither
terminal state is left. -/
def Obligations.EngineStates : Prop :=
  (∀ (image : List Byte) (r : Vector Byte 7),
    (State.launch image r).runState = .running ∧ (State.launch image r).pc = 0) ∧
  (∀ (m : OpcodeMap) (s t : State), cycle m s = .next t → (t.runState = .halted ↔ opAt m s = some .hlt)) ∧
  (∀ (m : OpcodeMap) (s t : State), cycle m s = .next t → s.fault = none →
    (t.runState = .faulted ↔ ∃ r, t.fault = some r)) ∧
  (∀ (m : OpcodeMap) (s t : State), s.runState ≠ .running → cycle m s ≠ .next t)

/-- A fault is precise: of the whole state only `runState` and `fault` change, and the record holds the address
of the faulting instruction and its opcode byte, absent if the opcode fetch itself faulted (R216 and R217, the
spec's decisions D5 and D6, log entry 13; that `ir` too is as before is log entry 5). -/
def Obligations.FaultsArePrecise : Prop :=
  ∀ (m : OpcodeMap) (s t : State), cycle m s = .next t → t.runState = .faulted →
    ∃ c, t = { s with runState := .faulted,
                      fault := some { cause := c, pc := s.pc,
                                      opcode := if s.pc ≤ 255 then some (s.mem.read s.pc) else none } }

/-- With both operand bytes in memory (`pc ≤ 253`), DecodeError is raised exactly when the byte fetched as an
opcode has no entry, and records the `pc` and the byte (R211). That an unknown byte at 254 or 255 raises no
DecodeError rests on the order fetch, operands, lookup (R105 and R114, the spec's decisions D3 and D4, log entry
12); that all the rest of the state, `ir` included, is as before rests on R216 (D5, log entries 5 and 13); the
opcode in the record is the spec's decision D6. -/
def Obligations.DecodeErrorExactly : Prop :=
  ∀ (m : OpcodeMap) (s t : State) (byte : Byte), MachineInv s → cycle m s = .next t →
    ((∃ r, t.fault = some r ∧ r.cause = .decodeError byte) ↔
      s.pc ≤ 253 ∧ s.mem.read s.pc = byte ∧ ∀ op, m op ≠ byte) ∧
    (s.pc ≤ 253 → s.mem.read s.pc = byte → (∀ op, m op ≠ byte) →
      t = { s with runState := .faulted,
                   fault := some { cause := .decodeError byte, pc := s.pc, opcode := some byte } })

/-- MemBounds is raised by exactly four accesses: the opcode fetch at `pc ≥ 256`, an operand read of an
instruction at 254 or 255, PUSH with `sp = 0` (address -1) and POP with `sp = 256` (address 256). It records
the address, the `pc` and, when the opcode was fetched, the opcode byte (R212). -/
def Obligations.MemBoundsExactly : Prop :=
  ∀ (m : OpcodeMap) (s t : State) (addr : Int), MachineInv s → cycle m s = .next t →
    ((∃ r, t.fault = some r ∧ r.cause = .memBounds addr) ↔
      (256 ≤ s.pc ∧ addr = s.pc) ∨ ((s.pc = 254 ∨ s.pc = 255) ∧ addr = 256) ∨
      (opAt m s = some .push ∧ s.sp = 0 ∧ addr = -1) ∨ (opAt m s = some .pop ∧ s.sp = 256 ∧ addr = 256)) ∧
    (∀ r, t.fault = some r → r.cause = .memBounds addr →
      r.pc = s.pc ∧ r.opcode = if s.pc ≤ 255 then some (s.mem.read s.pc) else none)

/-- RegBounds is raised exactly by LDI with `a > 7`, MUL and CMP with `a > 7` or else `b > 7`, JMP with `a > 7`, and
JEQ and JNE with `a > 7` when their condition holds; HLT, PRN, PUSH and POP never raise it. It records the
index, the `pc` and the opcode byte (R213). -/
def Obligations.RegBoundsExactly : Prop :=
  ∀ (m : OpcodeMap) (s t : State) (index : Byte), MachineInv s → cycle m s = .next t →
    ((∃ r, t.fault = some r ∧ r.cause = .regBounds index) ↔
      ∃ i, instrAt m s = some i ∧
        match i with
        | .hlt => False
        | .ldi a _ => 8 ≤ a.toNat ∧ index = a
        | .prn _ => False
        | .mul a b => (8 ≤ a.toNat ∧ index = a) ∨ (a.toNat < 8 ∧ 8 ≤ b.toNat ∧ index = b)
        | .cmp a b => (8 ≤ a.toNat ∧ index = a) ∨ (a.toNat < 8 ∧ 8 ≤ b.toNat ∧ index = b)
        | .jmp a => 8 ≤ a.toNat ∧ index = a
        | .jeq a => s.fl = .equal ∧ 8 ≤ a.toNat ∧ index = a
        | .jne a => (s.fl = .less ∨ s.fl = .greater) ∧ 8 ≤ a.toNat ∧ index = a
        | .push _ => False
        | .pop _ => False) ∧
    (∀ r, t.fault = some r → r.cause = .regBounds index → r.pc = s.pc ∧ r.opcode = some (s.mem.read s.pc))

/-- The kinds and cause codes of the four causes (R210; the codes are the spec's decision D6). -/
def Obligations.FaultKindsAndCodes : Prop :=
  ∀ r : FaultRecord,
    (∀ x, r.cause = .decodeError x → r.kind = .decodeError ∧ r.code = 1) ∧
    (∀ x, r.cause = .aluError x → r.kind = .aluError ∧ r.code = 2) ∧
    (∀ x, r.cause = .memBounds x → r.kind = .memBounds ∧ r.code = 3) ∧
    (∀ x, r.cause = .regBounds x → r.kind = .regBounds ∧ r.code = 4)

/-- The exit status: none while the run goes on, 0 after HALTED, nonzero after FAULTED (R223, the spec's decision
D17; which nonzero value is left open, log entry 11). -/
def Obligations.ExitStatus : Prop :=
  ∀ s : State, (s.runState = .running → s.exitStatus = none) ∧ (s.runState = .halted → s.exitStatus = some 0) ∧
    (s.runState = .faulted → ∃ n : Int, n ≠ 0 ∧ s.exitStatus = some n)

/-! ### Reset and invariant -/

/-- Every launch of a run, whatever the image and the draw of `REG_RESET`, gives each piece of state its reset
value (R40, R240): memory holds the image from address 0, R0 to R6 the draw, R7 and `sp` 0xF4, `pc` 0, `fl` NONE,
RUNNING, no fault, no output. `State.reset` is such a launch (log entries 2, 3, 16). -/
def Obligations.LaunchGivesResetValues : Prop :=
  (∀ (image : List Byte) (r : Vector Byte 7), imageWellFormed image = true →
    (∀ k (h : k < image.length), (State.launch image r).mem.read k = image[k]) ∧
    (∀ k (h : k < 7), (State.launch image r).regs[k]'(by omega) = r[k]) ∧
    (State.launch image r).regs[7] = 0xF4 ∧ (State.launch image r).pc = 0 ∧ (State.launch image r).sp = 0xF4 ∧
    (State.launch image r).fl = .none ∧ (State.launch image r).runState = .running ∧
    (State.launch image r).fault = none ∧ (State.launch image r).out = [] ∧ MachineInv (State.launch image r)) ∧
  ∃ (image : List Byte) (r : Vector Byte 7), imageWellFormed image = true ∧ State.reset = State.launch image r

/-- The invariant holds at reset (R20, R25, R26, R31, R40). -/
def Obligations.ResetHasInvariant : Prop := MachineInv State.reset

/-- Every step under every opcode map keeps the invariant: memory in canonical form below 256, `pc` and `sp` in
0..256, a fault record exactly in FAULTED (R20, R25, R26, R31). -/
def Obligations.StepKeepsInvariant : Prop :=
  ∀ (m : OpcodeMap) (s t : State), MachineInv s → cycle m s = .next t → MachineInv t

/-! ### Whole-machine rules -/

/-- The loop never adds the length to a JMP: `pc` is as the handler set it, and a JMP whose target is its own
address loops on itself forever (R110). -/
def Obligations.JmpToItselfLoopsForever : Prop :=
  (∀ (a : Byte) (s : State) (h : a.toNat < 8), ∃ t, exec (.jmp a) s = .next t ∧
    t.pc = (s.mem.read (s.regs[a.toNat]'h).toNat).toNat) ∧
  ∀ (m : OpcodeMap) (s : State) (a : Byte) (h : a.toNat < 8), s.runState = .running →
    instrAt m s = some (.jmp a) → (s.mem.read (s.regs[a.toNat]'h).toNat).toNat = s.pc →
    ∀ n, ∃ t, Runs m n s t ∧ t.runState = .running ∧ t.pc = s.pc ∧ instrAt m t = some (.jmp a)

/-- `ir` holds the opcode of the last instruction that completed, and no step reads it: two states that differ
in `ir` alone step to states that differ in `ir` alone (R29, with log entry 5 for a step that faults). -/
def Obligations.IrIsInvisible : Prop :=
  (∀ (m : OpcodeMap) (s t : State), cycle m s = .next t → t.runState ≠ .faulted → t.ir = s.mem.read s.pc) ∧
  ∀ (m : OpcodeMap) (s t : State) (x : Byte), cycle m s = .next t →
    ∃ t', cycle m { s with ir := x } = .next t' ∧ { t' with ir := t.ir } = t

/-- Registers reach nothing but registers unless a jump runs: along any run that executes no JMP, JEQ or JNE, a
state that differs in the registers alone (another `REG_RESET`) runs alike and ends in a state that differs in
the registers alone (10_state.md on reads of the register file). -/
def Obligations.RegistersAreInvisibleWithoutJumps : Prop :=
  ∀ (m : OpcodeMap) (n : Nat) (s t : State) (r : Vector Byte 8),
    RunsAvoiding m [.jmp, .jeq, .jne] n s t →
    ∃ t', RunsAvoiding m [.jmp, .jeq, .jne] n { s with regs := r } t' ∧ { t' with regs := t.regs } = t

/-- A CMP that completes leaves exactly one of EQUAL, GREATER, LESS, and the flag register keeps its value
through every run in which no CMP executes (R158, which the spec derives from R153, R157 and R27). -/
def Obligations.FlagsPersistUntilTheNextCompare : Prop :=
  (∀ (m : OpcodeMap) (s t : State), cycle m s = .next t → t.runState ≠ .faulted → opAt m s = some .cmp →
    t.fl = .equal ∨ t.fl = .greater ∨ t.fl = .less) ∧
  ∀ (m : OpcodeMap) (n : Nat) (s t : State), RunsAvoiding m [.cmp] n s t → t.fl = s.fl

/-- A branch reflects the latest compare: after a CMP of the cells `a` and `b` completes and any run without
another CMP, a JEQ with a register index in range goes to its target exactly if the two cells were equal, and a
JNE exactly if they were not; a jump that is not taken, or whose target is its own address, falls through
(R173, which the spec derives from R158, R171, R172 and R111; the fall-through on its own address is conflict C5,
log entry 14). It is a fact about one branch step after a run without a CMP. -/
def Obligations.BranchesReflectTheLatestCompare : Prop :=
  ∀ (m : OpcodeMap) (n : Nat) (s s' u : State) (a b j : Byte) (hj : j.toNat < 8),
    instrAt m s = some (.cmp a b) → cycle m s = .next s' → s'.runState = .running →
    RunsAvoiding m [.cmp] n s' u → u.runState = .running →
    (instrAt m u = some (.jeq j) → ∃ v, cycle m u = .next v ∧
      v.pc = if s.mem.read a.toNat = s.mem.read b.toNat ∧ (u.mem.read (u.regs[j.toNat]'hj).toNat).toNat ≠ u.pc
        then (u.mem.read (u.regs[j.toNat]'hj).toNat).toNat else u.pc + 2) ∧
    (instrAt m u = some (.jne j) → ∃ v, cycle m u = .next v ∧
      v.pc = if s.mem.read a.toNat ≠ s.mem.read b.toNat ∧ (u.mem.read (u.regs[j.toNat]'hj).toNat).toNat ≠ u.pc
        then (u.mem.read (u.regs[j.toNat]'hj).toNat).toNat else u.pc + 2)

/-- Bytes already emitted stay: along every run the output only grows at its end (10_state.md R32,
60_exceptions.md R216, R226). -/
def Obligations.OutputOnlyGrows : Prop :=
  ∀ (m : OpcodeMap) (n : Nat) (s t : State), Runs m n s t → ∃ more, t.out = s.out ++ more

/-- LDI of `b` into register `r`, then, in any later state where `M[r]` is as LDI left it, PRN of the same operand
emits `b` (R133, which the spec derives from R131 and R132). -/
def Obligations.LdiThenPrnEmitsTheImmediate : Prop :=
  ∀ (r b : Byte) (s : State), s.mem.wf = true → r.toNat < 8 →
    ∃ t, exec (.ldi r b) s = .next t ∧
      ∀ u : State, u.mem.read r.toNat = t.mem.read r.toNat →
        ∃ v, exec (.prn r) u = .next v ∧ v.out = u.out ++ [b]

/-- PUSH then POP of the same operand leaves `M[r]` and `sp` as before and the pushed byte in `M[sp - 1]` (R193,
which the spec derives from R191 and R192). -/
def Obligations.PushThenPopRestores : Prop :=
  ∀ (r : Byte) (s : State), s.mem.wf = true → 1 ≤ s.sp → s.sp ≤ 256 →
    ∃ t u, exec (.push r) s = .next t ∧ exec (.pop r) t = .next u ∧ u.sp = s.sp ∧
      u.mem.read r.toNat = s.mem.read r.toNat ∧ u.mem.read (s.sp - 1) = s.mem.read r.toNat

/-- A store is seen by the very next fetch: an LDI that writes the cell its own successor starts at makes the next
step run the byte it wrote, or fault with DecodeError on it if it is no opcode (R62 and R244, which the spec
derives from R59, R104, R105, R131 and the other write rules; that LDI writes the cell is conflict C1, log entry
14). That the faulting step changes only the run state and the record, `ir` included in what is as before, rests on
R216 (the spec's decision D5, log entries 5 and 13); the record is the spec's decision D6. -/
def Obligations.LdiCanRewriteTheNextOpcode : Prop :=
  ∀ (m : OpcodeMap) (s : State) (r b : Byte), s.mem.wf = true → s.runState = .running → r.toNat < 8 →
    r.toNat = s.pc + 3 → instrAt m s = some (.ldi r b) →
    ∃ t, cycle m s = .next t ∧ t.pc = s.pc + 3 ∧ opAt m t = m.lookup b ∧
      ((∀ op, m op ≠ b) → ∃ u, cycle m t = .next u ∧
        u = { t with runState := .faulted,
                     fault := some { cause := .decodeError b, pc := s.pc + 3, opcode := some b } })
end

