-- ==== Sys2Proof/Laws/Decode.lean ====
section
/-! SUPPORT. The laws of the opcode lookup and of the operand-count field. -/

namespace Sys2Proof

theorem Op.mem_all (op : Op) : op ∈ Op.all := by cases op <;> decide

/-- The lookup answers only an operation whose opcode is the byte. -/
theorem OpcodeMap.lookup_sound {m : OpcodeMap} {ir : Byte} {op : Op} (h : m.lookup ir = some op) :
    m op = ir := by
  have := List.find?_some h
  simpa using this

/-- The lookup fails only on a byte that is no operation's opcode. -/
theorem OpcodeMap.lookup_eq_none {m : OpcodeMap} {ir : Byte} :
    m.lookup ir = none ↔ ∀ op, m op ≠ ir := by
  simp [OpcodeMap.lookup, List.find?_eq_none, Op.mem_all]

theorem OpcodeMap.admissible_iff {m : OpcodeMap} : m.admissible = true ↔
    (Op.all.map m).Nodup ∧ ∀ op, countField (m op) = op.operandCount := by
  simp [OpcodeMap.admissible, Op.mem_all]

theorem OpcodeMap.admissible_injective {m : OpcodeMap} (h : m.admissible = true) {op op' : Op}
    (he : m op = m op') : op = op' :=
  List.inj_on_of_nodup_map (OpcodeMap.admissible_iff.1 h).1 (Op.mem_all op) (Op.mem_all op') he

/-- Under an admissible map every operation is found by its opcode. -/
theorem OpcodeMap.lookup_self {m : OpcodeMap} (h : m.admissible = true) (op : Op) :
    m.lookup (m op) = some op := by
  cases hl : m.lookup (m op) with
  | none => exact absurd rfl (OpcodeMap.lookup_eq_none.1 hl op)
  | some op' => rw [OpcodeMap.admissible_injective h (OpcodeMap.lookup_sound hl)]

/-- The operation found in an opcode byte has the operand count of its top two bits, so the length the
program counter moves by is `1 + IR[7:6]` (40_execution_engine.md R106; log entry 17). -/
theorem OpcodeMap.lookup_length {m : OpcodeMap} (h : m.admissible = true) {ir : Byte} {op : Op}
    (hl : m.lookup ir = some op) : op.length = 1 + countField ir := by
  rw [Op.length, ← OpcodeMap.lookup_sound hl, (OpcodeMap.admissible_iff.1 h).2]

theorem Op.assemble_op (op : Op) (a b : Byte) : (op.assemble a b).op = op := by cases op <;> rfl

theorem decode_eq_ok {m : OpcodeMap} {ir a b : Byte} {i : Instr} :
    decode m ir a b = .ok i ↔ ∃ op, m.lookup ir = some op ∧ op.assemble a b = i := by
  unfold decode
  cases m.lookup ir <;> simp

theorem decode_eq_error {m : OpcodeMap} {ir a b : Byte} {e : DecodeReject} :
    decode m ir a b = .error e ↔ m.lookup ir = none ∧ e = .unknownOpcode ir := by
  unfold decode
  cases m.lookup ir <;> simp [eq_comm]

/-- The operation of a decoded instruction is the one looked up. -/
theorem lookup_of_decode {m : OpcodeMap} {ir a b : Byte} {i : Instr} (h : decode m ir a b = .ok i) :
    m.lookup ir = some i.op := by
  obtain ⟨op, hl, rfl⟩ := decode_eq_ok.1 h
  rw [Op.assemble_op, hl]

end Sys2Proof
end

