-- ==== Sys2Proof/Laws/Memory.lean ====
section
/-! SUPPORT. The laws of memory: a read after a write, the canonical form that every operation keeps, and
that memories in that form are equal when every cell reads alike. -/

namespace Sys2Proof.Machine

theorem Memory.read_cons (k : Nat) (v : Byte) (m : Memory) (a : Nat) :
    Memory.read ((k, v) :: m) a = if a = k then v else m.read a := rfl

theorem Memory.wfFrom_cons (lo k : Nat) (v : Byte) (m : Memory) :
    Memory.wfFrom lo ((k, v) :: m) = true ↔
      lo ≤ k ∧ k < 256 ∧ v ≠ Memory.unlisted ∧ Memory.wfFrom (k + 1) m = true := by
  simp [Memory.wfFrom, and_assoc]

/-- A lower bound on the listed addresses may be lowered. -/
theorem Memory.wfFrom_mono {lo lo' : Nat} (h : lo' ≤ lo) {m : Memory} (hm : m.wfFrom lo = true) :
    m.wfFrom lo' = true := by
  cases m with
  | nil => rfl
  | cons c m =>
    obtain ⟨k, v⟩ := c
    rw [Memory.wfFrom_cons] at hm ⊢
    exact ⟨le_trans h hm.1, hm.2⟩

/-- Below the lower bound nothing is listed. -/
theorem Memory.read_of_lt {m : Memory} {lo a : Nat} (hm : m.wfFrom lo = true) (ha : a < lo) :
    m.read a = Memory.unlisted := by
  induction m generalizing lo with
  | nil => rfl
  | cons c m ih =>
    obtain ⟨k, v⟩ := c
    rw [Memory.wfFrom_cons] at hm
    rw [Memory.read_cons, if_neg (by omega), ih hm.2.2.2 (by omega)]

/-- From 256 up nothing is listed. -/
theorem Memory.read_of_ge {m : Memory} {lo a : Nat} (hm : m.wfFrom lo = true) (ha : 256 ≤ a) :
    m.read a = Memory.unlisted := by
  induction m generalizing lo with
  | nil => rfl
  | cons c m ih =>
    obtain ⟨k, v⟩ := c
    rw [Memory.wfFrom_cons] at hm
    rw [Memory.read_cons, if_neg (by omega), ih hm.2.2.2]

theorem Memory.read_memoryCons_of_ne {m : Memory} {a b : Nat} {v : Byte} (h : b ≠ a) :
    (Memory.cons a v m).read b = m.read b := by
  unfold Memory.cons
  split
  · rfl
  · rw [Memory.read_cons, if_neg h]

theorem Memory.read_memoryCons_self {m : Memory} {a : Nat} {v : Byte} (hm : m.wfFrom (a + 1) = true) :
    (Memory.cons a v m).read a = v := by
  unfold Memory.cons
  split
  · next h => rw [h]; exact Memory.read_of_lt hm (by omega)
  · rw [Memory.read_cons, if_pos rfl]

theorem Memory.memoryCons_wfFrom {m : Memory} {lo a : Nat} {v : Byte} (hlo : lo ≤ a) (ha : a < 256)
    (hm : m.wfFrom (a + 1) = true) : (Memory.cons a v m).wfFrom lo = true := by
  unfold Memory.cons
  split
  · exact Memory.wfFrom_mono (by omega) hm
  · next h => rw [Memory.wfFrom_cons]; exact ⟨hlo, ha, h, hm⟩

/-- A write changes no other address. -/
theorem Memory.read_write_of_ne (m : Memory) {a b : Nat} (v : Byte) (h : b ≠ a) :
    (m.write a v).read b = m.read b := by
  induction m with
  | nil => exact Memory.read_memoryCons_of_ne h
  | cons c m ih =>
    obtain ⟨k, w⟩ := c
    unfold Memory.write
    split
    · exact Memory.read_memoryCons_of_ne h
    · split
      · next hak => rw [Memory.read_memoryCons_of_ne h, Memory.read_cons, if_neg (by omega)]
      · rw [Memory.read_cons, Memory.read_cons, ih]

/-- A read of the address just written gives the byte written. -/
theorem Memory.read_write_self {m : Memory} {lo : Nat} (a : Nat) (v : Byte) (hm : m.wfFrom lo = true) :
    (m.write a v).read a = v := by
  induction m generalizing lo with
  | nil => exact Memory.read_memoryCons_self rfl
  | cons c m ih =>
    obtain ⟨k, w⟩ := c
    have hc := (Memory.wfFrom_cons lo k w m).1 hm
    unfold Memory.write
    split
    · exact Memory.read_memoryCons_self ((Memory.wfFrom_cons _ _ _ _).2 ⟨by omega, hc.2⟩)
    · split
      · next hak => subst hak; exact Memory.read_memoryCons_self hc.2.2.2
      · rw [Memory.read_cons, if_neg (by assumption), ih hc.2.2.2]

theorem Memory.read_write {m : Memory} (hm : m.wf = true) (a b : Nat) (v : Byte) :
    (m.write a v).read b = if b = a then v else m.read b := by
  split
  · next h => rw [h]; exact Memory.read_write_self a v hm
  · next h => exact Memory.read_write_of_ne m v h

/-- A write keeps the canonical form. -/
theorem Memory.write_wfFrom {m : Memory} {lo a : Nat} (v : Byte) (hlo : lo ≤ a) (ha : a < 256)
    (hm : m.wfFrom lo = true) : (m.write a v).wfFrom lo = true := by
  induction m generalizing lo with
  | nil => exact Memory.memoryCons_wfFrom hlo ha rfl
  | cons c m ih =>
    obtain ⟨k, w⟩ := c
    have hc := (Memory.wfFrom_cons lo k w m).1 hm
    unfold Memory.write
    split
    · exact Memory.memoryCons_wfFrom hlo ha ((Memory.wfFrom_cons _ _ _ _).2 ⟨by omega, hc.2⟩)
    · split
      · next hak => subst hak; exact Memory.memoryCons_wfFrom hlo ha hc.2.2.2
      · rw [Memory.wfFrom_cons]
        exact ⟨hc.1, hc.2.1, hc.2.2.1, ih (by omega) hc.2.2.2⟩

theorem Memory.write_wf {m : Memory} {a : Nat} (v : Byte) (ha : a < 256) (hm : m.wf = true) :
    (m.write a v).wf = true := Memory.write_wfFrom v (Nat.zero_le a) ha hm

theorem Memory.place_wf {m : Memory} (a : Nat) (v : Byte) (hm : m.wf = true) : (m.place a v).wf = true := by
  unfold Memory.place
  split
  · exact Memory.write_wf v (by assumption) hm
  · exact hm

theorem Memory.load_wf {m : Memory} (base : Nat) (vs : List Byte) (hm : m.wf = true) :
    (m.load base vs).wf = true := by
  induction vs generalizing m base with
  | nil => exact hm
  | cons v vs ih => exact ih (base + 1) (Memory.place_wf base v hm)

/-- Memories in canonical form that read alike at every address are the same list. -/
theorem Memory.ext_of_read {m n : Memory} {lo : Nat} (hm : m.wfFrom lo = true) (hn : n.wfFrom lo = true)
    (h : ∀ a, m.read a = n.read a) : m = n := by
  induction m generalizing lo n with
  | nil =>
    cases n with
    | nil => rfl
    | cons c n =>
      obtain ⟨k, v⟩ := c
      have hc := (Memory.wfFrom_cons lo k v n).1 hn
      have hk := h k
      rw [Memory.read_cons, if_pos rfl] at hk
      exact absurd hk.symm hc.2.2.1
  | cons c m ih =>
    obtain ⟨k, v⟩ := c
    have hc := (Memory.wfFrom_cons lo k v m).1 hm
    cases n with
    | nil =>
      have hk := h k
      rw [Memory.read_cons, if_pos rfl] at hk
      exact absurd hk hc.2.2.1
    | cons d n =>
      obtain ⟨j, w⟩ := d
      have hd := (Memory.wfFrom_cons lo j w n).1 hn
      have hk := h k
      have hj := h j
      simp only [Memory.read_cons, if_true] at hk hj
      have hkj : k = j := by
        rcases Nat.lt_trichotomy k j with hlt | heq | hgt
        · rw [if_neg (by omega), Memory.read_of_lt hd.2.2.2 (by omega)] at hk
          exact absurd hk hc.2.2.1
        · exact heq
        · rw [if_neg (by omega), Memory.read_of_lt hc.2.2.2 (by omega)] at hj
          exact absurd hj.symm hd.2.2.1
      subst hkj
      rw [if_pos rfl] at hk
      subst hk
      have htail : m = n := by
        refine ih hc.2.2.2 hd.2.2.2 (fun a => ?_)
        rcases Nat.lt_or_ge k a with hlt | hge
        · have ha := h a
          rwa [Memory.read_cons, Memory.read_cons, if_neg (by omega), if_neg (by omega)] at ha
        · rw [Memory.read_of_lt hc.2.2.2 (by omega), Memory.read_of_lt hd.2.2.2 (by omega)]
      rw [htail]

end Sys2Proof.Machine
end

