-- ==== Sys2Proof/Laws/State.lean ====
section
/-! SUPPORT. What each named update of the state does to each field: one lemma per field per update, true
by unfolding, so that no later proof unfolds an update. -/

namespace Sys2Proof.Machine

@[simp] theorem emit_mem (s : State) (v : Byte) : (emit s v).mem = s.mem := rfl
@[simp] theorem emit_regs (s : State) (v : Byte) : (emit s v).regs = s.regs := rfl
@[simp] theorem emit_pc (s : State) (v : Byte) : (emit s v).pc = s.pc := rfl
@[simp] theorem emit_sp (s : State) (v : Byte) : (emit s v).sp = s.sp := rfl
@[simp] theorem emit_fl (s : State) (v : Byte) : (emit s v).fl = s.fl := rfl
@[simp] theorem emit_ir (s : State) (v : Byte) : (emit s v).ir = s.ir := rfl
@[simp] theorem emit_runState (s : State) (v : Byte) : (emit s v).runState = s.runState := rfl
@[simp] theorem emit_fault (s : State) (v : Byte) : (emit s v).fault = s.fault := rfl
@[simp] theorem emit_out (s : State) (v : Byte) : (emit s v).out = s.out ++ [v] := rfl

@[simp] theorem takeFault_mem (s : State) (o : Option Byte) (c : FaultCause) : (takeFault s o c).mem = s.mem := rfl
@[simp] theorem takeFault_regs (s : State) (o : Option Byte) (c : FaultCause) : (takeFault s o c).regs = s.regs := rfl
@[simp] theorem takeFault_pc (s : State) (o : Option Byte) (c : FaultCause) : (takeFault s o c).pc = s.pc := rfl
@[simp] theorem takeFault_sp (s : State) (o : Option Byte) (c : FaultCause) : (takeFault s o c).sp = s.sp := rfl
@[simp] theorem takeFault_fl (s : State) (o : Option Byte) (c : FaultCause) : (takeFault s o c).fl = s.fl := rfl
@[simp] theorem takeFault_ir (s : State) (o : Option Byte) (c : FaultCause) : (takeFault s o c).ir = s.ir := rfl
@[simp] theorem takeFault_runState (s : State) (o : Option Byte) (c : FaultCause) : (takeFault s o c).runState = .faulted := rfl
@[simp] theorem takeFault_fault (s : State) (o : Option Byte) (c : FaultCause) : (takeFault s o c).fault = some ⟨c, s.pc, o⟩ := rfl
@[simp] theorem takeFault_out (s : State) (o : Option Byte) (c : FaultCause) : (takeFault s o c).out = s.out := rfl

@[simp] theorem latchIR_mem (s : State) (x : Byte) : (latchIR s x).mem = s.mem := rfl
@[simp] theorem latchIR_regs (s : State) (x : Byte) : (latchIR s x).regs = s.regs := rfl
@[simp] theorem latchIR_pc (s : State) (x : Byte) : (latchIR s x).pc = s.pc := rfl
@[simp] theorem latchIR_sp (s : State) (x : Byte) : (latchIR s x).sp = s.sp := rfl
@[simp] theorem latchIR_fl (s : State) (x : Byte) : (latchIR s x).fl = s.fl := rfl
@[simp] theorem latchIR_ir (s : State) (x : Byte) : (latchIR s x).ir = x := rfl
@[simp] theorem latchIR_runState (s : State) (x : Byte) : (latchIR s x).runState = s.runState := rfl
@[simp] theorem latchIR_fault (s : State) (x : Byte) : (latchIR s x).fault = s.fault := rfl
@[simp] theorem latchIR_out (s : State) (x : Byte) : (latchIR s x).out = s.out := rfl

@[simp] theorem setSp_mem (s : State) (p : Int) : (setSp s p).mem = s.mem := rfl
@[simp] theorem setSp_regs (s : State) (p : Int) : (setSp s p).regs = s.regs := rfl
@[simp] theorem setSp_pc (s : State) (p : Int) : (setSp s p).pc = s.pc := rfl
@[simp] theorem setSp_sp (s : State) (p : Int) : (setSp s p).sp = p.toNat := rfl
@[simp] theorem setSp_fl (s : State) (p : Int) : (setSp s p).fl = s.fl := rfl
@[simp] theorem setSp_ir (s : State) (p : Int) : (setSp s p).ir = s.ir := rfl
@[simp] theorem setSp_runState (s : State) (p : Int) : (setSp s p).runState = s.runState := rfl
@[simp] theorem setSp_fault (s : State) (p : Int) : (setSp s p).fault = s.fault := rfl
@[simp] theorem setSp_out (s : State) (p : Int) : (setSp s p).out = s.out := rfl

@[simp] theorem updateFlag_some (s : State) (r : Option Byte) (f : Flag) :
    updateFlag s ⟨r, some f⟩ = { s with fl := f } := rfl
@[simp] theorem updateFlag_none (s : State) (r : Option Byte) : updateFlag s ⟨r, none⟩ = s := rfl

@[simp] theorem launch_mem (image : List Byte) (r : Vector Byte 7) : (State.launch image r).mem = Memory.load [] 0 image := rfl
@[simp] theorem launch_regs (image : List Byte) (r : Vector Byte 7) : (State.launch image r).regs = r.push 0xF4 := rfl
@[simp] theorem launch_pc (image : List Byte) (r : Vector Byte 7) : (State.launch image r).pc = 0 := rfl
@[simp] theorem launch_sp (image : List Byte) (r : Vector Byte 7) : (State.launch image r).sp = 0xF4 := rfl
@[simp] theorem launch_fl (image : List Byte) (r : Vector Byte 7) : (State.launch image r).fl = .none := rfl
@[simp] theorem launch_ir (image : List Byte) (r : Vector Byte 7) : (State.launch image r).ir = 0 := rfl
@[simp] theorem launch_runState (image : List Byte) (r : Vector Byte 7) : (State.launch image r).runState = .running := rfl
@[simp] theorem launch_fault (image : List Byte) (r : Vector Byte 7) : (State.launch image r).fault = none := rfl
@[simp] theorem launch_out (image : List Byte) (r : Vector Byte 7) : (State.launch image r).out = [] := rfl

/-- The reset state is the launch of the empty image with the draw the model names for `REG_RESET`
(log entries 2 and 3). -/
theorem reset_eq_launch : State.reset = State.launch [] (Vector.replicate 7 0) := by decide

end Sys2Proof.Machine
end

