-- ==== Sys2Proof/Laws/Ops.lean ====
section
/-! SUPPORT. For each shared operation, once, everything it can do; later proofs cite these and do not
unfold the operation. -/

namespace Sys2Proof.Machine

theorem inMemory_iff {addr : Int} : inMemory addr = true ↔ 0 ≤ addr ∧ addr ≤ 255 := by simp [inMemory]

theorem inMemory_operand (a : Byte) : inMemory (operandAddr a) = true := by
  have := a.isLt
  rw [inMemory_iff, operandAddr]
  omega

@[simp] theorem toNat_operandAddr (a : Byte) : (operandAddr a).toNat = a.toNat := by simp [operandAddr]

theorem memRead_of_in {addr : Int} (s : State) (h : 0 ≤ addr ∧ addr ≤ 255) :
    memRead s addr = .ok (s.mem.read addr.toNat) := by rw [memRead, if_pos (inMemory_iff.2 h)]

theorem memRead_of_out {addr : Int} (s : State) (h : ¬(0 ≤ addr ∧ addr ≤ 255)) :
    memRead s addr = .error (.memBounds addr) := by rw [memRead, if_neg (mt inMemory_iff.1 h)]

theorem memWrite_of_in {addr : Int} (s : State) (v : Byte) (h : 0 ≤ addr ∧ addr ≤ 255) :
    memWrite s addr v = .ok { s with mem := s.mem.write addr.toNat v } := by
  rw [memWrite, if_pos (inMemory_iff.2 h)]

theorem memWrite_of_out {addr : Int} (s : State) (v : Byte) (h : ¬(0 ≤ addr ∧ addr ≤ 255)) :
    memWrite s addr v = .error (.memBounds addr) := by rw [memWrite, if_neg (mt inMemory_iff.1 h)]

/-- An operand byte used as an address never faults (30_encoding.md R74). -/
@[simp] theorem memRead_operand (s : State) (a : Byte) :
    memRead s (operandAddr a) = .ok (s.mem.read a.toNat) := by
  rw [memRead, if_pos (inMemory_operand a), toNat_operandAddr]

@[simp] theorem memWrite_operand (s : State) (a v : Byte) :
    memWrite s (operandAddr a) v = .ok { s with mem := s.mem.write a.toNat v } := by
  rw [memWrite, if_pos (inMemory_operand a), toNat_operandAddr]

theorem regRead_of_lt (s : State) {i : Byte} (h : i.toNat < 8) : regRead s i = .ok s.regs[i.toNat] := by
  rw [regRead, dif_pos h]

theorem regRead_of_ge (s : State) {i : Byte} (h : 8 ≤ i.toNat) : regRead s i = .error (.regBounds i) := by
  rw [regRead, dif_neg (by omega)]

theorem regWrite_of_lt (s : State) {i : Byte} (v : Byte) (h : i.toNat < 8) :
    regWrite s i v = .ok { s with regs := s.regs.set i.toNat v h } := by rw [regWrite, dif_pos h]

theorem regWrite_of_ge (s : State) {i : Byte} (v : Byte) (h : 8 ≤ i.toNat) :
    regWrite s i v = .error (.regBounds i) := by rw [regWrite, dif_neg (by omega)]

theorem copyCell_of_lt (s : State) {a : Byte} (h : a.toNat < 8) :
    copyCell s a = .ok { s with regs := s.regs.set a.toNat (s.mem.read a.toNat) h } := by
  rw [copyCell, memRead_operand]
  exact regWrite_of_lt s _ h

theorem copyCell_of_ge (s : State) {a : Byte} (h : 8 ≤ a.toNat) : copyCell s a = .error (.regBounds a) := by
  rw [copyCell, memRead_operand]
  exact regWrite_of_ge s _ h

theorem jumpTo_of_lt (s : State) {a : Byte} (h : a.toNat < 8) :
    jumpTo s a = .ok { s with pc := (s.mem.read s.regs[a.toNat].toNat).toNat } := by
  simp only [jumpTo, jumpTarget, regRead_of_lt s h, memRead_operand]

theorem jumpTo_of_ge (s : State) {a : Byte} (h : 8 ≤ a.toNat) : jumpTo s a = .error (.regBounds a) := by
  simp only [jumpTo, jumpTarget, regRead_of_ge s h]

/-- MUL and CMP after both copies: each of the two registers holds its own cell, whether or not the two
operands name the same one. -/
theorem copyAndCompute_of_lt (op : Op) (s : State) {a b : Byte} (ha : a.toNat < 8) (hb : b.toNat < 8) :
    copyAndCompute op a b s =
      match alu op.aluOp (s.mem.read a.toNat) (s.mem.read b.toNat) with
      | .error e => .error e
      | .ok o => .ok ({ s with regs := (s.regs.set a.toNat (s.mem.read a.toNat) ha).set b.toNat (s.mem.read b.toNat) hb }, o) := by
  have hx : ((s.regs.set a.toNat (s.mem.read a.toNat) ha).set b.toNat (s.mem.read b.toNat) hb)[a.toNat] =
      s.mem.read a.toNat := by
    rw [Vector.getElem_set, Vector.getElem_set]
    by_cases h : b.toNat = a.toNat <;> simp [h]
  cases hr : alu op.aluOp (s.mem.read a.toNat) (s.mem.read b.toNat) <;>
    simp only [copyAndCompute, copyCell_of_lt _ ha, copyCell_of_lt _ hb, regRead_of_lt _ ha, regRead_of_lt _ hb, hx,
      Vector.getElem_set_self, hr]

theorem copyAndCompute_of_ge_left (op : Op) (s : State) {a : Byte} (b : Byte) (ha : 8 ≤ a.toNat) :
    copyAndCompute op a b s = .error (.regBounds a) := by simp only [copyAndCompute, copyCell_of_ge _ ha]

theorem copyAndCompute_of_ge_right (op : Op) (s : State) {a b : Byte} (ha : a.toNat < 8) (hb : 8 ≤ b.toNat) :
    copyAndCompute op a b s = .error (.regBounds b) := by
  simp only [copyAndCompute, copyCell_of_lt _ ha, copyCell_of_ge _ hb]

@[simp] theorem finish_ok (op : Op) (s t : State) :
    finish op s (.ok t) = .next { t with pc := nextPc s.pc t.pc op.length op.pcClass } := rfl

@[simp] theorem finish_error (op : Op) (s : State) (c : FaultCause) :
    finish op s (.error c) = .next (takeFault s (some s.ir) c) := rfl

/-- An instruction always answers a next state. -/
theorem finish_next (op : Op) (s : State) (r : Except FaultCause State) : ∃ t, finish op s r = .next t := by
  cases r with
  | ok t => exact ⟨_, finish_ok op s t⟩
  | error c => exact ⟨_, finish_error op s c⟩

/-- Where the three bytes of an instruction exist, the fetch delivers them. -/
theorem fetch_of_le (s : State) (h : s.pc ≤ 253) :
    fetch s = .ok (s.mem.read s.pc, s.mem.read (s.pc + 1), s.mem.read (s.pc + 2)) := by
  have h0 : ((s.pc : Int)).toNat = s.pc := by omega
  have h1 : ((s.pc : Int) + 1).toNat = s.pc + 1 := by omega
  have h2 : ((s.pc : Int) + 2).toNat = s.pc + 2 := by omega
  simp only [fetch, memRead_of_in s (addr := (s.pc : Int)) (by omega),
    memRead_of_in s (addr := (s.pc : Int) + 1) (by omega), memRead_of_in s (addr := (s.pc : Int) + 2) (by omega),
    h0, h1, h2]

/-- At 254 and 255 an operand byte lies at 256 (40_execution_engine.md R105). -/
theorem fetch_of_top (s : State) (h : s.pc = 254 ∨ s.pc = 255) :
    fetch s = .error (some (s.mem.read s.pc), .memBounds 256) := by
  have h0 : ((s.pc : Int)).toNat = s.pc := by omega
  rcases h with h | h
  · simp only [fetch, memRead_of_in s (addr := (s.pc : Int)) (by omega),
      memRead_of_in s (addr := (s.pc : Int) + 1) (by omega), memRead_of_out s (addr := (s.pc : Int) + 2) (by omega), h0]
    simp [h]
  · simp only [fetch, memRead_of_in s (addr := (s.pc : Int)) (by omega),
      memRead_of_out s (addr := (s.pc : Int) + 1) (by omega), h0]
    simp [h]

/-- From 256 up the opcode fetch itself faults (40_execution_engine.md R104). -/
theorem fetch_of_ge (s : State) (h : 256 ≤ s.pc) : fetch s = .error (none, .memBounds s.pc) := by
  simp only [fetch, memRead_of_out s (addr := (s.pc : Int)) (by omega)]

end Sys2Proof.Machine
end

