-- ==== Sys2Proof/Laws/Exec.lean ====
section
/-! SUPPORT. Once, everything an instruction and a step can do: every instruction is its handler followed by
`finish`, and a step that answers a state ended in a fetch fault, a decode error or an instruction. -/

namespace Sys2Proof.Machine

/-- The handler of each instruction (40_execution_engine.md R102), gathered for case analysis. -/
def handler (i : Instr) (s : State) : Except FaultCause State :=
  match i with
  | .hlt => .ok { s with runState := .halted }
  | .ldi a b => handleLdi a b s
  | .prn a => handlePrn a s
  | .mul a b => handleMul a b s
  | .cmp a b => handleCmp a b s
  | .jmp a => jumpTo s a
  | .jeq a => if equalHolds s then jumpTo s a else .ok s
  | .jne a => if notEqualHolds s then jumpTo s a else .ok s
  | .push a => handlePush a s
  | .pop a => handlePop a s

theorem exec_eq_finish (i : Instr) (s : State) : exec i s = finish i.op s (handler i s) := by
  cases i <;> rfl

/-- Every instruction answers a next state from every state. -/
theorem exec_next (i : Instr) (s : State) : ∃ t, exec i s = .next t := by
  rw [exec_eq_finish]
  exact finish_next _ _ _

/-- An instruction either takes a fault, which leaves all but `runState` and `fault`, or completes its handler
and moves the program counter. -/
theorem exec_inv {i : Instr} {s t : State} (h : exec i s = .next t) :
    (∃ c, handler i s = .error c ∧ t = takeFault s (some s.ir) c) ∨
    (∃ u, handler i s = .ok u ∧ t = { u with pc := nextPc s.pc u.pc i.op.length i.op.pcClass }) := by
  rw [exec_eq_finish] at h
  cases hh : handler i s with
  | ok u =>
    rw [hh, finish_ok] at h
    injection h with h
    exact .inr ⟨u, rfl, h.symm⟩
  | error c =>
    rw [hh, finish_error] at h
    injection h with h
    exact .inl ⟨c, rfl, h.symm⟩

@[simp] theorem afterExec_next (s t : State) :
    afterExec s (.next t) = .next (if t.runState = .faulted then { t with ir := s.ir } else t) := rfl

/-- A step that answers a state was taken in RUNNING and ended in a fetch fault, in a decode error, or in an
instruction. -/
theorem cycle_inv {m : OpcodeMap} {s t : State} (h : cycle m s = .next t) : s.runState = .running ∧
    ((∃ o c, fetch s = .error (o, c) ∧ t = takeFault s o c) ∨
     (∃ ir a b, fetch s = .ok (ir, a, b) ∧ m.lookup ir = none ∧ t = takeFault s (some ir) (.decodeError ir)) ∨
     (∃ ir a b i u, fetch s = .ok (ir, a, b) ∧ decode m ir a b = .ok i ∧ exec i (latchIR s ir) = .next u ∧
        t = if u.runState = .faulted then { u with ir := s.ir } else u)) := by
  unfold cycle at h
  cases hr : s.runState with
  | halted => rw [hr] at h; cases h
  | faulted => rw [hr] at h; cases h
  | running =>
    refine ⟨rfl, ?_⟩
    rw [hr] at h
    cases hf : fetch s with
    | error e =>
      obtain ⟨o, c⟩ := e
      rw [hf] at h
      injection h with h
      exact .inl ⟨o, c, rfl, h.symm⟩
    | ok f =>
      obtain ⟨ir, a, b⟩ := f
      rw [hf] at h
      cases hd : decode m ir a b with
      | error e =>
        simp only [hd] at h
        injection h with h
        exact .inr (.inl ⟨ir, a, b, rfl, (decode_eq_error.1 hd).1, h.symm⟩)
      | ok i =>
        obtain ⟨u, hu⟩ := exec_next i (latchIR s ir)
        simp only [hd, hu, afterExec_next] at h
        injection h with h
        exact .inr (.inr ⟨ir, a, b, i, u, rfl, hd, hu, h.symm⟩)

/-- A fetch fault ends the step. -/
theorem cycle_of_fetch_error {m : OpcodeMap} {s : State} {o : Option Byte} {c : FaultCause}
    (hr : s.runState = .running) (hf : fetch s = .error (o, c)) : cycle m s = .next (takeFault s o c) := by
  unfold cycle
  rw [hr, hf]

/-- A fetched byte without an entry ends the step with a decode error. -/
theorem cycle_of_lookup_none {m : OpcodeMap} {s : State} {ir a b : Byte} (hr : s.runState = .running)
    (hf : fetch s = .ok (ir, a, b)) (hl : m.lookup ir = none) :
    cycle m s = .next (takeFault s (some ir) (.decodeError ir)) := by
  unfold cycle
  rw [hr, hf]
  simp only [decode, hl]

/-- The fetch reads nothing but memory and `pc`. -/
theorem fetch_congr {s t : State} (hm : s.mem = t.mem) (hp : s.pc = t.pc) : fetch s = fetch t := by
  simp only [fetch, memRead, hm, hp]

/-- The fetch succeeds exactly where all three bytes exist, and then reads them. -/
theorem fetch_eq_ok {s : State} {ir a b : Byte} : fetch s = .ok (ir, a, b) ↔
    s.pc ≤ 253 ∧ ir = s.mem.read s.pc ∧ a = s.mem.read (s.pc + 1) ∧ b = s.mem.read (s.pc + 2) := by
  rcases Nat.lt_or_ge 253 s.pc with h | h
  · rcases Nat.lt_or_ge s.pc 256 with h' | h'
    · rw [fetch_of_top s (by omega)]
      simp; omega
    · rw [fetch_of_ge s h']
      simp; omega
  · rw [fetch_of_le s h]
    simp [h, eq_comm]

theorem fetch_eq_error {s : State} {o : Option Byte} {c : FaultCause} : fetch s = .error (o, c) ↔
    ((s.pc = 254 ∨ s.pc = 255) ∧ o = some (s.mem.read s.pc) ∧ c = .memBounds 256) ∨
    (256 ≤ s.pc ∧ o = none ∧ c = .memBounds s.pc) := by
  constructor
  · intro h
    rcases Nat.lt_or_ge 253 s.pc with hp | hp
    · rcases Nat.lt_or_ge s.pc 256 with hq | hq
      · rw [fetch_of_top s (by omega)] at h
        cases h
        exact .inl ⟨by omega, rfl, rfl⟩
      · rw [fetch_of_ge s hq] at h
        cases h
        exact .inr ⟨hq, rfl, rfl⟩
    · rw [fetch_of_le s hp] at h
      cases h
  · rintro (⟨hp, rfl, rfl⟩ | ⟨hp, rfl, rfl⟩)
    · exact fetch_of_top s hp
    · exact fetch_of_ge s hp

theorem instrAt_eq_some {m : OpcodeMap} {s : State} {i : Instr} : instrAt m s = some i ↔
    s.pc ≤ 253 ∧ decode m (s.mem.read s.pc) (s.mem.read (s.pc + 1)) (s.mem.read (s.pc + 2)) = .ok i := by
  unfold instrAt opAt
  rw [decode_eq_ok]
  split <;> simp [*]

theorem opAt_eq_some {m : OpcodeMap} {s : State} {op : Op} : opAt m s = some op ↔
    s.pc ≤ 253 ∧ m.lookup (s.mem.read s.pc) = some op := by
  unfold opAt
  split <;> simp [*]

theorem opAt_of_instrAt {m : OpcodeMap} {s : State} {i : Instr} (h : instrAt m s = some i) :
    opAt m s = some i.op := by
  obtain ⟨hp, hd⟩ := instrAt_eq_some.1 h
  exact opAt_eq_some.2 ⟨hp, lookup_of_decode hd⟩

end Sys2Proof.Machine
end

