-- ==== Sys2Proof/Laws/PerInstr.lean ====
section
/-! SUPPORT. Per instruction, the length of its encoding (30_encoding.md R70): one lemma per constructor. -/

namespace Sys2Proof.Laws.EncodedLength

/-- Under every opcode map the encoding of the instruction has `1 + operand_count` bytes. -/
def Statement (i : Instr) : Prop := ∀ m : OpcodeMap, (encode m i).length = 1 + i.op.operandCount

theorem hlt : Statement .hlt := fun _ => rfl
theorem ldi (a b : Byte) : Statement (.ldi a b) := fun _ => rfl
theorem prn (a : Byte) : Statement (.prn a) := fun _ => rfl
theorem mul (a b : Byte) : Statement (.mul a b) := fun _ => rfl
theorem cmp (a b : Byte) : Statement (.cmp a b) := fun _ => rfl
theorem jmp (a : Byte) : Statement (.jmp a) := fun _ => rfl
theorem jeq (a : Byte) : Statement (.jeq a) := fun _ => rfl
theorem jne (a : Byte) : Statement (.jne a) := fun _ => rfl
theorem push (a : Byte) : Statement (.push a) := fun _ => rfl
theorem pop (a : Byte) : Statement (.pop a) := fun _ => rfl

end Sys2Proof.Laws.EncodedLength
end

