-- ==== Sys2Proof/Tests/Slice0.lean ====
section
/-! SUPPORT. The model's own tests. Every expected result is taken from the spec: the encodings of
30_encoding.md R78 and R83, and the vectors of 95_test_vectors.md, whose labels (L3, M6, K9 …) the comments
name. The last part shows, for every statement with hypotheses, a concrete case that meets them. -/

namespace Sys2Proof.Tests

open Sys2Proof Sys2Proof.Machine

/-- The state of a next outcome. -/
def nextState (o : Host.Outcome State Fault Refusal) : Option State :=
  match o with
  | .next t => some t
  | .fault _ => none
  | .refused _ => none

/-- The reset state with other memory, `pc` and `sp`. -/
def start (mem : Memory) (pc sp : Nat) : State := { State.reset with mem := mem, pc := pc, sp := sp }

/-- The start of the jump vectors: `x[2] = 32`, `M[32] = target`, at `pc = 12`. -/
def jumpStart (target : Byte) (fl : Flag) : State :=
  { State.reset with mem := [(32, target)], regs := State.reset.regs.set 2 32, pc := 12, fl := fl }

/-! ### Well-formedness smoke tests -/

theorem test_image_of_257_bytes_refused : imageWellFormed (List.replicate 257 0) = false := by
  rw [imageWellFormed, List.length_replicate]; rfl
theorem test_image_of_256_bytes_accepted : imageWellFormed (List.replicate 256 0) = true := by
  rw [imageWellFormed, List.length_replicate]; rfl
theorem test_opcode_map_with_a_duplicate_refused :
    OpcodeMap.admissible (fun op => if op = .pop then 0x45 else defaultOpcodes op) = false := by decide
theorem test_opcode_map_with_a_wrong_count_refused :
    OpcodeMap.admissible (fun op => if op = .hlt then 0x41 else defaultOpcodes op) = false := by decide
theorem test_default_opcode_map_admissible : defaultOpcodes.admissible = true := by decide
/-- An operand byte outside 0..7 is no ill-formed instruction (10_state.md R24). -/
theorem test_register_200_is_well_formed : Instr.wellFormed (.ldi 200 0) = true := by decide

/-! ### Decoding words written out from R78 (opcode) and R71 (operand bytes in address order) -/

theorem test_decode_hlt : decodeTableWord 8 0b00000001 = some .hlt := by decide
theorem test_decode_ldi : decodeTableWord 24 0b00001000_00000101_10000010 = some (.ldi 5 8) := by decide
theorem test_decode_prn : decodeTableWord 16 0b11001000_01000111 = some (.prn 200) := by decide
theorem test_decode_mul : decodeTableWord 24 0b00000001_00000000_10100010 = some (.mul 0 1) := by decide
theorem test_decode_cmp : decodeTableWord 24 0b00000010_00000000_10100111 = some (.cmp 0 2) := by decide
theorem test_decode_jmp : decodeTableWord 16 0b00000010_01010100 = some (.jmp 2) := by decide
theorem test_decode_jeq : decodeTableWord 16 0b00000010_01010101 = some (.jeq 2) := by decide
theorem test_decode_jne : decodeTableWord 16 0b00000011_01010110 = some (.jne 3) := by decide
theorem test_decode_push : decodeTableWord 16 0b11001000_01000101 = some (.push 200) := by decide
theorem test_decode_pop : decodeTableWord 16 0b00000011_01000110 = some (.pop 3) := by decide
/-- A row given as its opcode byte alone has zero operand bytes. -/
theorem test_decode_opcode_byte_alone : decodeTableWord 8 0x82 = some (.ldi 0 0) := by decide
/-- ADD of the LS-8 has no opcode here (R81). -/
theorem test_decode_add_is_unbound : decodeTableWord 24 0x0100A0 = none := by decide
/-- Row 0x55 of V-DEC. -/
theorem test_decoder_outputs_jeq :
    decoderOutputs defaultOpcodes 0x55 = ⟨1, 2, true, some (.jeq, .cond, .none)⟩ := by decide
/-- Row 0xC0 of V-DEC. -/
theorem test_decoder_outputs_c0 : decoderOutputs defaultOpcodes 0xC0 = ⟨3, 4, false, none⟩ := by decide
/-- `LDI 1, 9` of R83. -/
theorem test_encode_ldi : encode defaultOpcodes (.ldi 1 9) = [0x82, 0x01, 0x09] := by decide

/-! ### ALU vectors (V-ALU) -/

theorem test_alu_add_200_100 : alu .add 200 100 = .ok ⟨some 44, none⟩ := by rfl
theorem test_alu_mul_255_255 : alu .mul 255 255 = .ok ⟨some 1, none⟩ := by rfl
theorem test_alu_cmp_1_2 : alu .cmp 1 2 = .ok ⟨none, some .less⟩ := by rfl
theorem test_alu_other : alu (.other 5) 1 2 = .error (.aluError (.other 5)) := by rfl

/-! ### Instructions, one step each -/

/-- E8. -/
theorem test_hlt_at_253_halts :
    (nextState (step (start [(253, 0x01)] 253 0xF4))).map (fun t => t.runState) = some .halted := by decide
/-- E6. -/
theorem test_hlt_at_254_faults :
    (nextState (step (start [(254, 0x01)] 254 0xF4))).map (fun t => (t.runState, t.pc, t.fault)) =
      some (.faulted, 254, some ⟨.memBounds 256, 254, some 0x01⟩) := by decide
/-- L3. -/
theorem test_ldi_r7_leaves_sp :
    (nextState (exec (.ldi 7 0x10) State.reset)).map (fun t => (t.regs[7], t.mem.read 7, t.sp, t.pc)) =
      some (0x10, 0x10, 0xF4, 3) := by decide
/-- L4. -/
theorem test_ldi_r8_faults :
    (nextState (exec (.ldi 8 1) State.reset)).map (fun t => (t.mem, t.regs == State.reset.regs, t.pc, t.fault.map (·.cause))) =
      some ([], true, 0, some (.regBounds 8)) := by decide
/-- PR2. -/
theorem test_prn_200 :
    (nextState (exec (.prn 200) (start [(200, 0xFF)] 0 0xF4))).map (fun t => (t.out, t.pc)) =
      some ([0xFF], 2) := by decide
/-- PR3. -/
theorem test_prn_reads_memory_not_the_register :
    (nextState (exec (.prn 0) { start [(0, 3)] 0 0xF4 with regs := State.reset.regs.set 0 9, out := [1] })).map
      (fun t => t.out) = some [1, 3] := by decide
/-- M6. -/
theorem test_mul_same_register :
    (nextState (exec (.mul 2 2) (start [(2, 15)] 0 0xF4))).map (fun t => (t.regs[2], t.mem, t.pc)) =
      some (15, [(2, 225)], 3) := by decide
/-- M9. -/
theorem test_mul_fault_is_precise :
    (nextState (exec (.mul 0 8) { start [(0, 5)] 0 0xF4 with regs := State.reset.regs.set 0 1 })).map
      (fun t => (t.regs[0], t.mem, t.fault.map (·.cause))) = some (1, [(0, 5)], some (.regBounds 8)) := by decide
/-- CM4. -/
theorem test_cmp_is_unsigned :
    (nextState (exec (.cmp 0 1) (start [(1, 255)] 0 0xF4))).map (fun t => (t.fl, t.regs[0], t.regs[1], t.mem)) =
      some (.less, 0, 255, [(1, 255)]) := by decide
/-- CM7. -/
theorem test_cmp_fault_keeps_flag :
    (nextState (exec (.cmp 0 8) { State.reset with fl := .greater })).map (fun t => (t.fl, t.runState)) =
      some (.greater, .faulted) := by decide
/-- J1. -/
theorem test_jmp : (nextState (exec (.jmp 2) (jumpStart 20 .none))).map (fun t => t.pc) = some 20 := by decide
/-- J3. -/
theorem test_jmp_to_itself :
    (nextState (exec (.jmp 2) (jumpStart 12 .none))).map (fun t => t.pc) = some 12 := by decide
/-- J8. -/
theorem test_jeq_not_taken_checks_nothing :
    (nextState (exec (.jeq 9) (jumpStart 20 .less))).map (fun t => (t.pc, t.runState)) =
      some (14, .running) := by decide
/-- J10. -/
theorem test_jeq_to_itself_falls_through :
    (nextState (exec (.jeq 2) (jumpStart 12 .equal))).map (fun t => t.pc) = some 14 := by decide
/-- J11. -/
theorem test_jne_less : (nextState (exec (.jne 2) (jumpStart 20 .less))).map (fun t => t.pc) = some 20 := by decide
/-- J14. -/
theorem test_jne_none : (nextState (exec (.jne 2) (jumpStart 20 .none))).map (fun t => t.pc) = some 14 := by decide
/-- K9. -/
theorem test_push_overwrites_low_memory :
    (nextState (exec (.push 5) (start [(0, 1), (5, 0xEE)] 20 1))).map (fun t => (t.sp, t.mem)) =
      some (0, [(0, 0xEE), (5, 0xEE)]) := by decide
/-- K3. -/
theorem test_push_at_0_faults :
    (nextState (exec (.push 0) (start [(0, 1)] 20 0))).map (fun t => (t.sp, t.mem, t.fault.map (·.cause))) =
      some (0, [(0, 1)], some (.memBounds (-1))) := by decide
/-- K2. -/
theorem test_pop :
    (nextState (exec (.pop 0) (start [(0xF3, 42)] 20 0xF3))).map (fun t => (t.sp, t.mem.read 0, t.pc)) =
      some (0xF4, 42, 22) := by decide
/-- K4. -/
theorem test_pop_at_256_faults :
    (nextState (exec (.pop 0) (start [] 20 256))).map (fun t => (t.sp, t.fault.map (·.cause))) =
      some (256, some (.memBounds 256)) := by decide

/-! ### The engine -/

/-- E9, the second step. -/
theorem test_fetch_at_256_faults_without_opcode :
    (nextState (step (start [] 256 0xF4))).map (fun t => t.fault) =
      some (some ⟨.memBounds 256, 256, none⟩) := by decide
/-- E11. -/
theorem test_operand_read_precedes_the_lookup :
    (nextState (step (start [(255, 0xFF)] 255 0xF4))).map (fun t => t.fault) =
      some (some ⟨.memBounds 256, 255, some 0xFF⟩) := by decide
/-- S2, the second step. -/
theorem test_unknown_opcode :
    (nextState (step (start [(0, 5), (3, 0xFF)] 3 0xF4))).map (fun t => (t.runState, t.fault, t.fault.map (·.code), t.pc)) =
      some (.faulted, some ⟨.decodeError 0xFF, 3, some 0xFF⟩, some 1, 3) := by decide
/-- The first step of S1, its program placed by the loader. -/
theorem test_launch_runs_the_image :
    (nextState (step (State.launch [0x82, 0x00, 0x08, 0x82, 0x01, 0x09] (Vector.replicate 7 0x55)))).map
      (fun t => (t.regs[0], t.regs[1], t.mem.read 0, t.pc, t.ir)) = some (8, 0x55, 8, 3, 0x82) := by decide
/-- The host's placement of a word runs it as the first instruction after reset. -/
theorem test_with_fetch_word :
    (nextState (step (State.reset.withFetchWord 16 0x0047))).map (fun t => (t.out, t.pc)) =
      some ([0x47], 2) := by decide
/-- No step exists after HALTED (R101). -/
theorem test_no_step_after_halted : nextState (step { State.reset with runState := .halted }) = none := by decide
/-- Writing the unlisted byte takes the entry out again. -/
theorem test_memory_canonical : (Memory.write [(1, 2), (5, 6)] 5 0, Memory.wf [(5, 6), (1, 2)]) =
    ([(1, 2)], false) := by decide

/-! ### A concrete case for the hypotheses of every statement that has some -/

theorem witness_DecodeEncodeAgree :
    defaultOpcodes.admissible = true ∧ Instr.wellFormed (.mul 0 255) = true := by decide
theorem witness_EncodeDecodeAgree : decodeBytes defaultOpcodes [0x47, 200, 9] = .ok (.prn 200, [9]) := by rfl
theorem witness_ExactlyTenBytesAreOpcodes :
    defaultOpcodes.admissible = true ∧ ¬∃ op, defaultOpcodes op = 0x00 := by
  refine ⟨by decide, ?_⟩
  rintro ⟨op, h⟩
  cases op <;> exact absurd h (by decide)
theorem witness_TopBitsThreeAreIllegal :
    defaultOpcodes.admissible = true ∧ 192 ≤ (192 : Byte).toNat := by decide
theorem witness_DecoderBlockOutputs :
    defaultOpcodes.admissible = true ∧ defaultOpcodes .jmp = (0x54 : Byte) := by decide
theorem witness_AluErrorIsRaisedByNoProgram_other :
    AluOp.other 0 ≠ .add ∧ AluOp.other 0 ≠ .mul ∧ AluOp.other 0 ≠ .cmp := by decide
theorem witness_AluErrorIsRaisedByNoProgram_step :
    ∃ t r, cycle defaultOpcodes State.reset = .next t ∧ State.reset.fault = none ∧ t.fault = some r :=
  ⟨_, _, rfl, rfl, rfl⟩
theorem witness_register_index_in_range : (7 : Byte).toNat < 8 := by decide
theorem witness_register_index_out_of_range : 8 ≤ (8 : Byte).toNat := by decide
theorem witness_MulMeaning_second_index : (7 : Byte).toNat < 8 ∧ 8 ≤ (8 : Byte).toNat := by decide
theorem witness_JeqMeaning_not_taken : (jumpStart 20 .none).fl ≠ .equal := by decide
theorem witness_JeqMeaning_taken : (jumpStart 20 .equal).fl = .equal ∧ (2 : Byte).toNat < 8 ∧
    ((jumpStart 20 .equal).mem.read ((jumpStart 20 .equal).regs[2]).toNat).toNat ≠ (jumpStart 20 .equal).pc := by decide
theorem witness_JeqMeaning_self : (jumpStart 12 .equal).fl = .equal ∧ (2 : Byte).toNat < 8 ∧
    ((jumpStart 12 .equal).mem.read ((jumpStart 12 .equal).regs[2]).toNat).toNat = (jumpStart 12 .equal).pc := by decide
theorem witness_JeqMeaning_fault : (jumpStart 12 .equal).fl = .equal ∧ 8 ≤ (8 : Byte).toNat := by decide
theorem witness_JneMeaning_not_taken :
    ((jumpStart 20 .none).fl = .equal ∨ (jumpStart 20 .none).fl = .none) ∧
    ((jumpStart 20 .equal).fl = .equal ∨ (jumpStart 20 .equal).fl = .none) := by decide
theorem witness_JneMeaning_taken : ((jumpStart 20 .less).fl = .less ∨ (jumpStart 20 .less).fl = .greater) ∧
    (2 : Byte).toNat < 8 ∧
    ((jumpStart 20 .less).mem.read ((jumpStart 20 .less).regs[2]).toNat).toNat ≠ (jumpStart 20 .less).pc := by decide
theorem witness_JneMeaning_self : ((jumpStart 12 .greater).fl = .less ∨ (jumpStart 12 .greater).fl = .greater) ∧
    (2 : Byte).toNat < 8 ∧
    ((jumpStart 12 .greater).mem.read ((jumpStart 12 .greater).regs[2]).toNat).toNat = (jumpStart 12 .greater).pc := by decide
theorem witness_JneMeaning_fault :
    ((jumpStart 12 .less).fl = .less ∨ (jumpStart 12 .less).fl = .greater) ∧ 8 ≤ (255 : Byte).toNat := by decide
theorem witness_PushMeaning : (1 ≤ (start [] 0 256).sp ∧ (start [] 0 256).sp ≤ 256) ∧
    (1 ≤ (start [] 0 1).sp ∧ (start [] 0 1).sp ≤ 256) ∧ (start [] 0 0).sp = 0 := by decide
theorem witness_PopMeaning :
    (start [] 0 0).sp ≤ 255 ∧ (start [] 0 255).sp ≤ 255 ∧ (start [] 0 256).sp = 256 := by decide

/-- Every storing form answers a next state, with an address outside the one it stores to. -/
theorem witness_StoringFormsWriteOneByte :
    (∃ t, exec (.ldi 7 1) State.reset = .next t) ∧ (∃ t, exec (.mul 7 1) State.reset = .next t) ∧
    (∃ t, exec (.pop 7) State.reset = .next t) ∧ (∃ t, exec (.push 7) State.reset = .next t) ∧
    ((8 : Nat) : Int) ≠ operandAddr 7 ∧ ((0xF4 : Nat) : Int) ≠ pushAddr State.reset :=
  ⟨⟨_, rfl⟩, ⟨_, rfl⟩, ⟨_, rfl⟩, ⟨_, rfl⟩, by decide, by decide⟩
theorem witness_OtherFormsKeepMemory :
    Op.cmp ∈ [Op.hlt, .prn, .cmp, .jmp, .jeq, .jne] ∧ (∃ t, exec (.cmp 0 7) State.reset = .next t) :=
  ⟨by decide, ⟨_, rfl⟩⟩
theorem witness_RegisterFrame :
    (∃ t, exec (.ldi 7 1) State.reset = .next t) ∧
    (∃ t, exec (.mul 7 1) State.reset = .next t ∨ exec (.cmp 7 1) State.reset = .next t) ∧
    (∃ t, exec (.pop 7) State.reset = .next t) ∧ Op.pop ∈ [Op.hlt, .prn, .jmp, .jeq, .jne, .push, .pop] ∧
    0 ≠ (7 : Byte).toNat ∧ 0 ≠ (1 : Byte).toNat :=
  ⟨⟨_, rfl⟩, ⟨_, .inl rfl⟩, ⟨_, rfl⟩, by decide, by decide, by decide⟩
theorem witness_SpecialStateFrame :
    ∃ t, exec (.prn 0) State.reset = .next t ∧ (Instr.prn 0).op ≠ .push ∧ (Instr.prn 0).op ≠ .pop ∧
      (Instr.prn 0).op ≠ .cmp :=
  ⟨_, rfl, by decide, by decide, by decide⟩
theorem witness_SpecialStateFrame_out : ∃ t, exec (.cmp 0 1) State.reset = .next t ∧ (Instr.cmp 0 1).op ≠ .prn :=
  ⟨_, rfl, by decide⟩
theorem witness_SequentialInstructionsAdvanceByLength :
    ∃ t, exec (.ldi 7 0) (start [] 253 0xF4) = .next t ∧
      (Instr.ldi 7 0).op ∈ [Op.ldi, .prn, .mul, .cmp, .push, .pop] ∧ t.runState ≠ .faulted :=
  ⟨_, rfl, by decide, by decide⟩
theorem witness_RegisterSevenIsNotTheStackPointer :
    (∃ t, exec (.ldi 7 1) State.reset = .next t ∨ exec (.mul 7 1) State.reset = .next t ∨
      exec (.cmp 7 1) State.reset = .next t) ∧
    (∃ t, exec (.push 7) State.reset = .next t ∨ exec (.pop 7) State.reset = .next t) :=
  ⟨⟨_, .inl rfl⟩, ⟨_, .inl rfl⟩⟩

theorem witness_StepRunsDecodedInstruction :
    (start [(253, 0x01)] 253 0xF4).runState = .running ∧ (start [(253, 0x01)] 253 0xF4).pc ≤ 253 ∧
    decode defaultOpcodes (Memory.read [(253, 0x01)] 253) (Memory.read [(253, 0x01)] 254)
      (Memory.read [(253, 0x01)] 255) = .ok .hlt :=
  ⟨rfl, by decide, rfl⟩
theorem witness_StepsExistExactlyWhileRunning :
    State.reset.runState = .running ∧ { State.reset with runState := .halted }.runState = .halted ∧
    { State.reset with runState := .faulted }.runState = .faulted := by decide
theorem witness_EngineStates : ∃ t, cycle defaultOpcodes State.reset = .next t ∧ State.reset.fault = none ∧
    { State.reset with runState := .halted }.runState ≠ .running :=
  ⟨_, rfl, rfl, by decide⟩
theorem witness_FaultsArePrecise : ∃ t, cycle defaultOpcodes (start [] 255 0xF4) = .next t ∧ t.runState = .faulted :=
  ⟨_, rfl, rfl⟩

/-- A state in RUNNING with its `pc` and `sp` in range and canonical memory meets the invariant. -/
theorem start_inv {mem : Memory} {pc sp : Nat} (hm : mem.wf = true) (hp : pc ≤ 256) (hs : sp ≤ 256) :
    MachineInv (start mem pc sp) := ⟨hm, hp, hs, by simp [start, State.reset]⟩

theorem witness_DecodeErrorExactly : ∃ t, MachineInv State.reset ∧ cycle defaultOpcodes State.reset = .next t ∧
    State.reset.pc ≤ 253 ∧ State.reset.mem.read State.reset.pc = 0x00 ∧ ∀ op, defaultOpcodes op ≠ 0x00 :=
  ⟨_, start_inv rfl (by decide) (by decide), rfl, by decide, rfl, fun op => by cases op <;> decide⟩
/-- The last address at which an unknown opcode byte raises DecodeError. -/
theorem witness_DecodeErrorExactly_last :
    ∃ t, MachineInv (start [(253, 0xFF)] 253 0xF4) ∧ cycle defaultOpcodes (start [(253, 0xFF)] 253 0xF4) = .next t ∧
      (start [(253, 0xFF)] 253 0xF4).pc ≤ 253 ∧ Memory.read [(253, 0xFF)] 253 = 0xFF ∧
      (∀ op, defaultOpcodes op ≠ 0xFF) ∧ t.fault.map FaultRecord.cause = some (.decodeError 0xFF) :=
  ⟨_, start_inv rfl (by decide) (by decide), rfl, by decide, rfl, fun op => by cases op <;> decide, rfl⟩
/-- One address further the same byte is a MemBounds of the operand read (R114). -/
theorem witness_DecodeErrorExactly_beyond :
    ∃ t, MachineInv (start [(254, 0xFF)] 254 0xF4) ∧ cycle defaultOpcodes (start [(254, 0xFF)] 254 0xF4) = .next t ∧
      t.fault.map FaultRecord.cause = some (.memBounds 256) :=
  ⟨_, start_inv rfl (by decide) (by decide), rfl, rfl⟩
theorem witness_MemBoundsExactly_fetch :
    ∃ t r, MachineInv (start [] 256 0xF4) ∧ cycle defaultOpcodes (start [] 256 0xF4) = .next t ∧
      t.fault = some r ∧ r.cause = .memBounds 256 :=
  ⟨_, _, start_inv rfl (by decide) (by decide), rfl, rfl, rfl⟩
theorem witness_MemBoundsExactly_operand :
    ∃ t r, MachineInv (start [] 254 0xF4) ∧ cycle defaultOpcodes (start [] 254 0xF4) = .next t ∧
      t.fault = some r ∧ r.cause = .memBounds 256 :=
  ⟨_, _, start_inv rfl (by decide) (by decide), rfl, rfl, rfl⟩
theorem witness_MemBoundsExactly_push :
    ∃ t r, MachineInv (start [(9, 0x45)] 9 0) ∧ cycle defaultOpcodes (start [(9, 0x45)] 9 0) = .next t ∧
      t.fault = some r ∧ r.cause = .memBounds (-1) :=
  ⟨_, _, start_inv rfl (by decide) (by decide), rfl, rfl, rfl⟩
theorem witness_MemBoundsExactly_pop :
    ∃ t r, MachineInv (start [(9, 0x46)] 9 256) ∧ cycle defaultOpcodes (start [(9, 0x46)] 9 256) = .next t ∧
      t.fault = some r ∧ r.cause = .memBounds 256 :=
  ⟨_, _, start_inv rfl (by decide) (by decide), rfl, rfl, rfl⟩
theorem witness_RegBoundsExactly :
    ∃ t r, MachineInv (start [(9, 0xA2), (10, 7), (11, 8)] 9 0) ∧
      cycle defaultOpcodes (start [(9, 0xA2), (10, 7), (11, 8)] 9 0) = .next t ∧
      t.fault = some r ∧ r.cause = .regBounds 8 :=
  ⟨_, _, start_inv rfl (by decide) (by decide), rfl, rfl, rfl⟩
theorem witness_FaultKindsAndCodes :
    (∃ x, (FaultRecord.mk (.decodeError 0) 0 none).cause = .decodeError x) ∧
    (∃ x, (FaultRecord.mk (.aluError .none) 0 none).cause = .aluError x) ∧
    (∃ x, (FaultRecord.mk (.memBounds (-1)) 0 none).cause = .memBounds x) ∧
    (∃ x, (FaultRecord.mk (.regBounds 8) 0 none).cause = .regBounds x) :=
  ⟨⟨_, rfl⟩, ⟨_, rfl⟩, ⟨_, rfl⟩, ⟨_, rfl⟩⟩
theorem witness_ExitStatus : State.reset.runState = .running ∧
    { State.reset with runState := .halted }.runState = .halted ∧
    { State.reset with runState := .faulted }.runState = .faulted := by decide
theorem witness_LaunchGivesResetValues :
    imageWellFormed (List.replicate 256 1) = true ∧ 255 < (List.replicate 256 (1 : Byte)).length := by
  rw [imageWellFormed, List.length_replicate]; exact ⟨rfl, by decide⟩
theorem witness_StepKeepsInvariant :
    ∃ t, MachineInv (start [(253, 0x82)] 253 256) ∧ cycle defaultOpcodes (start [(253, 0x82)] 253 256) = .next t :=
  ⟨_, start_inv rfl (by decide) (by decide), rfl⟩

/-- J3 as a whole state: JMP R2 at 12 with the target 12. -/
theorem witness_JmpToItselfLoopsForever :
    let s := { jumpStart 12 .none with mem := [(12, 0x54), (13, 2), (32, 12)] }
    (2 : Byte).toNat < 8 ∧ s.runState = .running ∧ instrAt defaultOpcodes s = some (.jmp 2) ∧
      (s.mem.read (s.regs[2]).toNat).toNat = s.pc := by decide
theorem witness_IrIsInvisible : ∃ t, cycle defaultOpcodes (start [(0, 0x47)] 0 0xF4) = .next t ∧ t.runState ≠ .faulted :=
  ⟨_, rfl, by decide⟩
theorem witness_RegistersAreInvisibleWithoutJumps :
    ∃ t, RunsAvoiding defaultOpcodes [.jmp, .jeq, .jne] 1 (start [(0, 0x82), (1, 7)] 0 0xF4) t :=
  ⟨_, by decide, _, rfl, rfl⟩
theorem witness_FlagsPersistUntilTheNextCompare_run :
    ∃ t, RunsAvoiding defaultOpcodes [.cmp] 1 { start [(0, 0x82), (1, 7)] 0 0xF4 with fl := .less } t :=
  ⟨_, by decide, _, rfl, rfl⟩
theorem witness_FlagsPersistUntilTheNextCompare_cmp :
    ∃ t, cycle defaultOpcodes (start [(0, 0xA7), (1, 7)] 0 0xF4) = .next t ∧ t.runState ≠ .faulted ∧
      opAt defaultOpcodes (start [(0, 0xA7), (1, 7)] 0 0xF4) = some .cmp :=
  ⟨_, rfl, by decide, by decide⟩

/-- CMP R0, R1 at 16 of two equal cells, then a conditional jump naming R2 at 19. -/
def compareThen (jump : Byte) : State := start [(16, 0xA7), (18, 1), (19, jump), (20, 2)] 16 0xF4

theorem witness_BranchesReflectTheLatestCompare_jeq :
    ∃ u, instrAt defaultOpcodes (compareThen 0x55) = some (.cmp 0 1) ∧
      cycle defaultOpcodes (compareThen 0x55) = .next u ∧ u.runState = .running ∧
      RunsAvoiding defaultOpcodes [.cmp] 0 u u ∧ instrAt defaultOpcodes u = some (.jeq 2) ∧ (2 : Byte).toNat < 8 :=
  ⟨_, by decide, rfl, rfl, rfl, by decide, by decide⟩
theorem witness_BranchesReflectTheLatestCompare_jne :
    ∃ u, instrAt defaultOpcodes (compareThen 0x56) = some (.cmp 0 1) ∧
      cycle defaultOpcodes (compareThen 0x56) = .next u ∧ u.runState = .running ∧
      RunsAvoiding defaultOpcodes [.cmp] 0 u u ∧ instrAt defaultOpcodes u = some (.jne 2) ∧ (2 : Byte).toNat < 8 :=
  ⟨_, by decide, rfl, rfl, rfl, by decide, by decide⟩
theorem witness_OutputOnlyGrows : ∃ t, Runs defaultOpcodes 1 (start [(0, 0x47)] 0 0xF4) t := ⟨_, _, rfl, rfl⟩
theorem witness_LdiThenPrnEmitsTheImmediate :
    State.reset.mem.wf = true ∧ (7 : Byte).toNat < 8 ∧
    ∃ t, exec (.ldi 7 9) State.reset = .next t ∧ t.mem.read 7 = t.mem.read 7 :=
  ⟨rfl, by decide, _, rfl, rfl⟩
theorem witness_PushThenPopRestores :
    (start [] 0 256).mem.wf = true ∧ 1 ≤ (start [] 0 256).sp ∧ (start [] 0 256).sp ≤ 256 := by decide
/-- P4 of 95_test_vectors.md. -/
theorem witness_LdiCanRewriteTheNextOpcode :
    let s := start [(0, 0x82), (1, 3), (2, 7), (3, 0x01)] 0 0xF4
    s.mem.wf = true ∧ s.runState = .running ∧ (3 : Byte).toNat < 8 ∧ (3 : Byte).toNat = s.pc + 3 ∧
      instrAt defaultOpcodes s = some (.ldi 3 7) ∧ ∀ op ∈ Op.all, defaultOpcodes op ≠ 7 := by decide

end Sys2Proof.Tests
end

section
/-! SUPPORT. What each handler answers, one equation per case of its checks, and from these once what any
handler can do to the run state and to the fault record. -/

namespace Sys2Proof.Machine

theorem handleLdi_of_lt (s : State) {a : Byte} (b : Byte) (h : a.toNat < 8) :
    handleLdi a b s = .ok { s with regs := s.regs.set a.toNat b h, mem := s.mem.write a.toNat b } := by
  rw [handleLdi, regWrite_of_lt s b h]
  exact memWrite_operand _ a b

theorem handleLdi_of_ge (s : State) {a : Byte} (b : Byte) (h : 8 ≤ a.toNat) :
    handleLdi a b s = .error (.regBounds a) := by rw [handleLdi, regWrite_of_ge s b h]

theorem handlePrn_eq (a : Byte) (s : State) : handlePrn a s = .ok (emit s (s.mem.read a.toNat)) := by
  rw [handlePrn, memRead_operand]

theorem handleMul_of_lt (s : State) {a b : Byte} (ha : a.toNat < 8) (hb : b.toNat < 8) :
    handleMul a b s = .ok
      { s with regs := (s.regs.set a.toNat (s.mem.read a.toNat) ha).set b.toNat (s.mem.read b.toNat) hb,
               mem := s.mem.write a.toNat
                 (BitVec.ofNat 8 ((s.mem.read a.toNat).toNat * (s.mem.read b.toNat).toNat)) } := by
  rw [handleMul, copyAndCompute_of_lt .mul s ha hb]
  exact memWrite_operand _ a _

theorem handleMul_of_ge_left (s : State) {a : Byte} (b : Byte) (ha : 8 ≤ a.toNat) :
    handleMul a b s = .error (.regBounds a) := by rw [handleMul, copyAndCompute_of_ge_left .mul s b ha]

theorem handleMul_of_ge_right (s : State) {a b : Byte} (ha : a.toNat < 8) (hb : 8 ≤ b.toNat) :
    handleMul a b s = .error (.regBounds b) := by rw [handleMul, copyAndCompute_of_ge_right .mul s ha hb]

theorem handleCmp_of_lt (s : State) {a b : Byte} (ha : a.toNat < 8) (hb : b.toNat < 8) :
    handleCmp a b s = .ok
      { s with regs := (s.regs.set a.toNat (s.mem.read a.toNat) ha).set b.toNat (s.mem.read b.toNat) hb,
               fl := compareFlag (s.mem.read a.toNat) (s.mem.read b.toNat) } := by
  rw [handleCmp, copyAndCompute_of_lt .cmp s ha hb]
  rfl

theorem handleCmp_of_ge_left (s : State) {a : Byte} (b : Byte) (ha : 8 ≤ a.toNat) :
    handleCmp a b s = .error (.regBounds a) := by rw [handleCmp, copyAndCompute_of_ge_left .cmp s b ha]

theorem handleCmp_of_ge_right (s : State) {a b : Byte} (ha : a.toNat < 8) (hb : 8 ≤ b.toNat) :
    handleCmp a b s = .error (.regBounds b) := by rw [handleCmp, copyAndCompute_of_ge_right .cmp s ha hb]

theorem handlePush_of_in (a : Byte) {s : State} (h : 1 ≤ s.sp ∧ s.sp ≤ 256) :
    handlePush a s = .ok
      { s with mem := s.mem.write (s.sp - 1) (s.mem.read a.toNat), sp := s.sp - 1 } := by
  have haddr : 0 ≤ pushAddr s ∧ pushAddr s ≤ 255 := by unfold pushAddr; omega
  have hnat : (pushAddr s).toNat = s.sp - 1 := by unfold pushAddr; omega
  simp only [handlePush, memRead_operand, memWrite_of_in s _ haddr, setSp, hnat]

theorem handlePush_of_out (a : Byte) {s : State} (h : ¬(1 ≤ s.sp ∧ s.sp ≤ 256)) :
    handlePush a s = .error (.memBounds (pushAddr s)) := by
  have haddr : ¬(0 ≤ pushAddr s ∧ pushAddr s ≤ 255) := by unfold pushAddr; omega
  simp only [handlePush, memRead_operand, memWrite_of_out s _ haddr]

theorem handlePop_of_le (a : Byte) {s : State} (h : s.sp ≤ 255) :
    handlePop a s = .ok { s with mem := s.mem.write a.toNat (s.mem.read s.sp), sp := s.sp + 1 } := by
  have haddr : 0 ≤ popAddr s ∧ popAddr s ≤ 255 := by unfold popAddr; omega
  have hnat : (popAddr s).toNat = s.sp := by unfold popAddr; omega
  have hnext : (popAddr s + 1).toNat = s.sp + 1 := by unfold popAddr; omega
  simp only [handlePop, memRead_of_in s haddr, memWrite_operand, setSp, hnat, hnext]

theorem handlePop_of_gt (a : Byte) {s : State} (h : 255 < s.sp) :
    handlePop a s = .error (.memBounds (popAddr s)) := by
  have haddr : ¬(0 ≤ popAddr s ∧ popAddr s ≤ 255) := by unfold popAddr; omega
  simp only [handlePop, memRead_of_out s haddr]

/-- What a handler answers, as far as the run state and the fault record go: it completes, leaving the record
and, but for HLT, the run state alone; or it raises a bounds fault. -/
def EngineEffect (op : Op) (s : State) : Except FaultCause State → Prop
  | .ok u => u.fault = s.fault ∧ u.runState = if op = .hlt then .halted else s.runState
  | .error c => op ≠ .hlt ∧ (c.kind = .memBounds ∨ c.kind = .regBounds)

/-- A handler that checks a register index has its effect from the two answers of that check. -/
theorem engineEffect_of_index {op : Op} (hop : op ≠ .hlt) {s : State} {a : Byte} {r : Except FaultCause State}
    (hbad : 8 ≤ a.toNat → r = .error (.regBounds a)) (hgood : a.toNat < 8 → EngineEffect op s r) :
    EngineEffect op s r := by
  rcases Nat.lt_or_ge a.toNat 8 with ha | ha
  · exact hgood ha
  · rw [hbad ha]; exact ⟨hop, .inr rfl⟩

theorem jumpTo_engineEffect {op : Op} (hop : op ≠ .hlt) (a : Byte) (s : State) :
    EngineEffect op s (jumpTo s a) :=
  engineEffect_of_index hop (jumpTo_of_ge s) fun ha => by
    rw [jumpTo_of_lt s ha]; exact ⟨rfl, (if_neg hop).symm⟩

/-- A conditional jump has the effect of the jump or none. -/
theorem jumpIf_engineEffect {op : Op} (hop : op ≠ .hlt) (c : Bool) (a : Byte) (s : State) :
    EngineEffect op s (if c then jumpTo s a else .ok s) := by
  cases c with
  | true => exact jumpTo_engineEffect hop a s
  | false => exact ⟨rfl, (if_neg hop).symm⟩

theorem handler_engineEffect (i : Instr) (s : State) : EngineEffect i.op s (handler i s) := by
  cases i with
  | hlt => exact ⟨rfl, rfl⟩
  | ldi a b =>
    refine engineEffect_of_index (op := .ldi) (by decide) (handleLdi_of_ge s b) fun ha => ?_
    rw [handler, handleLdi_of_lt s b ha]; exact ⟨rfl, rfl⟩
  | prn a => rw [handler, handlePrn_eq]; exact ⟨rfl, rfl⟩
  | mul a b =>
    refine engineEffect_of_index (op := .mul) (by decide) (handleMul_of_ge_left s b) fun ha => ?_
    refine engineEffect_of_index (op := .mul) (by decide) (handleMul_of_ge_right s ha) fun hb => ?_
    rw [handler, handleMul_of_lt s ha hb]; exact ⟨rfl, rfl⟩
  | cmp a b =>
    refine engineEffect_of_index (op := .cmp) (by decide) (handleCmp_of_ge_left s b) fun ha => ?_
    refine engineEffect_of_index (op := .cmp) (by decide) (handleCmp_of_ge_right s ha) fun hb => ?_
    rw [handler, handleCmp_of_lt s ha hb]; exact ⟨rfl, rfl⟩
  | jmp a => exact jumpTo_engineEffect (op := .jmp) (by decide) a s
  | jeq a => exact jumpIf_engineEffect (op := .jeq) (by decide) (equalHolds s) a s
  | jne a => exact jumpIf_engineEffect (op := .jne) (by decide) (notEqualHolds s) a s
  | push a =>
    rw [handler]
    by_cases hsp : 1 ≤ s.sp ∧ s.sp ≤ 256
    · rw [handlePush_of_in a hsp]; exact ⟨rfl, rfl⟩
    · rw [handlePush_of_out a hsp]; exact ⟨nofun, .inl rfl⟩
  | pop a =>
    rw [handler]
    rcases Nat.lt_or_ge 255 s.sp with hsp | hsp
    · rw [handlePop_of_gt a hsp]; exact ⟨nofun, .inl rfl⟩
    · rw [handlePop_of_le a hsp]; exact ⟨rfl, rfl⟩

/-- A handler that completes keeps the fault record, and the run state too unless it is HLT's. -/
theorem handler_ok_engine {i : Instr} {s u : State} (h : handler i s = .ok u) :
    u.fault = s.fault ∧ u.runState = if i.op = .hlt then .halted else s.runState := by
  have heff := handler_engineEffect i s
  rwa [h] at heff

/-- Only bounds faults are raised by a handler, and none by HLT's. -/
theorem handler_error_engine {i : Instr} {s : State} {c : FaultCause} (h : handler i s = .error c) :
    i.op ≠ .hlt ∧ (c.kind = .memBounds ∨ c.kind = .regBounds) := by
  have heff := handler_engineEffect i s
  rwa [h] at heff

end Sys2Proof.Machine
end

section
/-! SUPPORT. The step, from what stands at `pc`: what it answers there, and once, in terms of the handler,
everything it can do. -/

namespace Sys2Proof.Machine

/-- In RUNNING a step runs the instruction at `pc`. -/
theorem cycle_of_instrAt {m : OpcodeMap} {s : State} {i : Instr} (hr : s.runState = .running)
    (hi : instrAt m s = some i) : cycle m s = afterExec s (exec i (latchIR s (s.mem.read s.pc))) := by
  obtain ⟨hp, hd⟩ := instrAt_eq_some.1 hi
  unfold cycle
  rw [hr, fetch_of_le s hp]
  simp only [hd]

/-- The four ends of a step from RUNNING: the fetch faults; the opcode byte has no entry; the handler raises;
or the handler completes and the program counter moves (40_execution_engine.md R102). -/
theorem cycle_cases {m : OpcodeMap} {s t : State} (h : cycle m s = .next t) : s.runState = .running ∧
    ((253 < s.pc ∧ ∃ o addr, t = takeFault s o (.memBounds addr)) ∨
     (s.pc ≤ 253 ∧ m.lookup (s.mem.read s.pc) = none ∧
        t = takeFault s (some (s.mem.read s.pc)) (.decodeError (s.mem.read s.pc))) ∨
     (∃ i c, instrAt m s = some i ∧ handler i (latchIR s (s.mem.read s.pc)) = .error c ∧
        t = takeFault s (some (s.mem.read s.pc)) c) ∨
     (∃ i u, instrAt m s = some i ∧ handler i (latchIR s (s.mem.read s.pc)) = .ok u ∧
        t = { u with pc := nextPc s.pc u.pc i.op.length i.op.pcClass })) := by
  obtain ⟨hr, ⟨o, c, hf, ht⟩ | ⟨ir, a, b, hf, hl, ht⟩ | ⟨ir, a, b, i, u, hf, hd, hu, ht⟩⟩ := cycle_inv h
  · refine ⟨hr, .inl ?_⟩
    obtain ⟨hp, -, hc⟩ | ⟨hp, -, hc⟩ := fetch_eq_error.1 hf
    · exact ⟨by omega, o, _, hc ▸ ht⟩
    · exact ⟨by omega, o, _, hc ▸ ht⟩
  · obtain ⟨hp, rfl, -, -⟩ := fetch_eq_ok.1 hf
    exact ⟨hr, .inr (.inl ⟨hp, hl, ht⟩)⟩
  · obtain ⟨hp, rfl, rfl, rfl⟩ := fetch_eq_ok.1 hf
    have hi : instrAt m s = some i := instrAt_eq_some.2 ⟨hp, hd⟩
    refine ⟨hr, .inr (.inr ?_)⟩
    obtain ⟨c, hh, rfl⟩ | ⟨v, hh, rfl⟩ := exec_inv hu
    · exact .inl ⟨i, c, hi, hh, ht⟩
    · have hnf : v.runState ≠ .faulted := by
        rw [(handler_ok_engine hh).2, latchIR_runState, hr]
        split <;> decide
      rw [if_neg hnf] at ht
      exact .inr ⟨i, v, hi, hh, ht⟩

/-- A step exists in RUNNING only (40_execution_engine.md R101). -/
theorem running_of_cycle {m : OpcodeMap} {s t : State} (h : cycle m s = .next t) : s.runState = .running :=
  (cycle_cases h).1

/-- A step ends HALTED exactly if it dispatched to HLT. -/
theorem cycle_halted_iff {m : OpcodeMap} {s t : State} (h : cycle m s = .next t) :
    t.runState = .halted ↔ opAt m s = some .hlt := by
  obtain ⟨hr, ⟨hp, o, addr, rfl⟩ | ⟨hp, hl, rfl⟩ | ⟨i, c, hi, hh, rfl⟩ | ⟨i, u, hi, hh, rfl⟩⟩ := cycle_cases h
  · simp [opAt, show ¬ s.pc ≤ 253 by omega]
  · simp [opAt, hl]
  · simp [opAt_of_instrAt hi, (handler_error_engine hh).1]
  · simp only [opAt_of_instrAt hi, (handler_ok_engine hh).2, latchIR_runState, hr]
    split <;> simp [*]

/-- From a state without a fault record, a step ends FAULTED exactly if it filled the record. -/
theorem cycle_faulted_iff {m : OpcodeMap} {s t : State} (h : cycle m s = .next t) (hs : s.fault = none) :
    t.runState = .faulted ↔ ∃ r, t.fault = some r := by
  obtain ⟨hr, ⟨hp, o, addr, rfl⟩ | ⟨hp, hl, rfl⟩ | ⟨i, c, hi, hh, rfl⟩ | ⟨i, u, hi, hh, rfl⟩⟩ := cycle_cases h
  · simp
  · simp
  · simp
  · obtain ⟨hfault, hrun⟩ := handler_ok_engine hh
    simp only [hfault, hrun, latchIR_fault, latchIR_runState, hs, hr]
    split <;> simp

/-- In a state with the invariant that still runs, the fault record is empty (10_state.md R31). -/
theorem MachineInv.fault_eq_none {s : State} (hs : MachineInv s) (hr : s.runState = .running) :
    s.fault = none := by
  simpa [hr] using hs.fault_iff

/-- A step that leaves a record of DecodeError was refused at the lookup. -/
theorem unknown_of_decodeError {m : OpcodeMap} {s t : State} {r : FaultRecord} {byte : Byte}
    (hs : s.fault = none) (h : cycle m s = .next t) (hr : t.fault = some r)
    (hc : r.cause = .decodeError byte) :
    s.pc ≤ 253 ∧ s.mem.read s.pc = byte ∧ m.lookup byte = none := by
  obtain ⟨-, ⟨hp, o, addr, rfl⟩ | ⟨hp, hl, rfl⟩ | ⟨i, c, hi, hh, rfl⟩ | ⟨i, u, hi, hh, rfl⟩⟩ := cycle_cases h
  · cases hr; cases hc
  · cases hr; cases hc
    exact ⟨hp, rfl, hl⟩
  · cases hr
    obtain rfl : c = .decodeError byte := hc
    obtain ⟨-, hkind | hkind⟩ := handler_error_engine hh <;> cases hkind
  · have hu : u.fault = s.fault := (handler_ok_engine hh).1
    simp [hu, hs] at hr

/-- A step at a byte without an entry takes the fault DecodeError and nothing else (60_exceptions.md R216). -/
theorem cycle_eq_of_unknown {m : OpcodeMap} {s t : State} (h : cycle m s = .next t) (hp : s.pc ≤ 253)
    (hl : m.lookup (s.mem.read s.pc) = none) :
    t = takeFault s (some (s.mem.read s.pc)) (.decodeError (s.mem.read s.pc)) := by
  rw [cycle_of_lookup_none (running_of_cycle h) (fetch_of_le s hp) hl] at h
  injection h with h
  exact h.symm

/-- A JMP with its index in range leaves `pc` at its target; nothing is added to it (R110). -/
theorem exec_jmp_of_lt (s : State) {a : Byte} (h : a.toNat < 8) :
    exec (.jmp a) s = .next { s with pc := (s.mem.read s.regs[a.toNat].toNat).toNat } := by
  rw [exec_eq_finish]
  simp only [handler, jumpTo_of_lt s h, finish_ok]
  rfl

/-- One turn of a JMP to its own address writes the instruction register only. -/
theorem cycle_jmp_self {m : OpcodeMap} {s : State} {a : Byte} (h : a.toNat < 8) (hr : s.runState = .running)
    (hi : instrAt m s = some (.jmp a)) (hself : (s.mem.read s.regs[a.toNat].toNat).toNat = s.pc) :
    cycle m s = .next (latchIR s (s.mem.read s.pc)) := by
  rw [cycle_of_instrAt hr hi, exec_jmp_of_lt _ h, afterExec_next, if_neg (by simp [hr])]
  simp only [latchIR_mem, latchIR_regs, hself]
  rfl

/-- After any number of turns of a JMP to its own address the state is the first one up to the instruction
register (R113). -/
theorem runs_jmp_self {m : OpcodeMap} {a : Byte} (h : a.toNat < 8) (n : Nat) {s : State}
    (hr : s.runState = .running) (hi : instrAt m s = some (.jmp a))
    (hself : (s.mem.read s.regs[a.toNat].toNat).toNat = s.pc) : ∃ ir, Runs m n s (latchIR s ir) := by
  induction n generalizing s with
  | zero => exact ⟨s.ir, rfl⟩
  | succ n ih =>
    obtain ⟨ir, hrun⟩ := ih (s := latchIR s (s.mem.read s.pc)) hr hi hself
    exact ⟨ir, _, cycle_jmp_self h hr hi hself, hrun⟩

end Sys2Proof.Machine
end

section
/-! SUPPORT. The decoder block's outputs: the count field as a quotient, when the lookup succeeds, and where
each class and each ALU operation is selected (40_execution_engine.md R108, R115). -/

namespace Sys2Proof

theorem countField_eq (ir : Byte) : countField ir = ir.toNat / 64 := by
  have := ir.isLt
  rw [countField, BitVec.extractLsb'_toNat, Nat.shiftRight_eq_div_pow]
  omega

theorem OpcodeMap.lookup_isSome {m : OpcodeMap} {ir : Byte} :
    (m.lookup ir).isSome = true ↔ ∃ op, m op = ir := by
  rw [Option.isSome_iff_ne_none, ne_eq, OpcodeMap.lookup_eq_none]
  simp

theorem Op.pcClass_eq_uncond (op : Op) : op.pcClass = .uncond ↔ op = .jmp := by cases op <;> decide
theorem Op.pcClass_eq_cond (op : Op) : op.pcClass = .cond ↔ op = .jeq ∨ op = .jne := by cases op <;> decide
theorem Op.pcClass_eq_seq (op : Op) : op.pcClass = .seq ↔ op ≠ .jmp ∧ op ≠ .jeq ∧ op ≠ .jne := by
  cases op <;> decide
theorem Op.aluOp_eq_mul (op : Op) : op.aluOp = .mul ↔ op = .mul := by cases op <;> decide
theorem Op.aluOp_eq_cmp (op : Op) : op.aluOp = .cmp ↔ op = .cmp := by cases op <;> decide
theorem Op.aluOp_eq_none (op : Op) : op.aluOp = .none ↔ op ≠ .mul ∧ op ≠ .cmp := by cases op <;> decide

end Sys2Proof
end

section
/-! PROOFS. The statements of 40_execution_engine.md: the decoder block, the run states, DecodeError, and the
JMP that loops on itself. -/

namespace Sys2Proof.Proofs

open Sys2Proof Sys2Proof.Machine

/-- Settles O7: the top two bits are a quotient, and an admissible map finds each operation by its opcode. -/
theorem decoderBlockOutputs : Obligations.DecoderBlockOutputs := by
  intro m hm ir
  refine ⟨countField_eq ir, congrArg (1 + ·) (countField_eq ir), OpcodeMap.lookup_isSome, ?_⟩
  rintro op rfl
  have hop : (decoderOutputs m (m op)).operation = some (op, op.pcClass, op.aluOp) := by
    simp only [decoderOutputs, OpcodeMap.lookup_self hm, Option.map_some]
  exact ⟨op.pcClass, op.aluOp, hop, op.pcClass_eq_uncond, op.pcClass_eq_cond, op.pcClass_eq_seq,
    op.aluOp_eq_mul, op.aluOp_eq_cmp, op.aluOp_eq_none⟩

/-- Settles O30, from the four ends a step can have. -/
theorem engineStates : Obligations.EngineStates :=
  ⟨fun image r => ⟨launch_runState image r, launch_pc image r⟩,
   fun _ _ _ h => cycle_halted_iff h,
   fun _ _ _ h hs => cycle_faulted_iff h hs,
   fun _ _ _ hne h => hne (running_of_cycle h)⟩

/-- Settles O32: no fetch and no handler raises DecodeError, and the lookup raises it with no other effect. -/
theorem decodeErrorExactly : Obligations.DecodeErrorExactly := by
  intro m s t byte hs h
  have hnone : s.fault = none := hs.fault_eq_none (running_of_cycle h)
  refine ⟨⟨?_, ?_⟩, ?_⟩
  · rintro ⟨r, hr, hc⟩
    obtain ⟨hp, hbyte, hl⟩ := unknown_of_decodeError hnone h hr hc
    exact ⟨hp, hbyte, OpcodeMap.lookup_eq_none.1 hl⟩
  · rintro ⟨hp, rfl, hop⟩
    rw [cycle_eq_of_unknown h hp (OpcodeMap.lookup_eq_none.2 hop)]
    exact ⟨_, takeFault_fault _ _ _, rfl⟩
  · rintro hp rfl hop
    exact cycle_eq_of_unknown h hp (OpcodeMap.lookup_eq_none.2 hop)

/-- Settles O40: each turn of the loop writes the instruction register only. -/
theorem jmpToItselfLoopsForever : Obligations.JmpToItselfLoopsForever := by
  refine ⟨fun a s h => ⟨_, exec_jmp_of_lt s h, rfl⟩, ?_⟩
  intro m s a h hr hi hself n
  obtain ⟨ir, hrun⟩ := runs_jmp_self h n hr hi hself
  exact ⟨latchIR s ir, hrun, hr, rfl, hi⟩

end Sys2Proof.Proofs
end

section
/-! SUPPORT. What an instruction answers, read off its handler: a handler of class SEQ that completes, and a
handler that raises (40_execution_engine.md R102, R109). -/

namespace Sys2Proof.Machine

/-- A sequential instruction whose handler completes answers the handler's state, `pc` moved by its length. -/
theorem exec_seq_of_handler_ok {i : Instr} {s u : State} (hseq : i.op.pcClass = .seq)
    (h : handler i s = .ok u) : exec i s = .next { u with pc := s.pc + i.op.length } := by
  rw [exec_eq_finish, h, finish_ok, hseq]
  rfl

/-- An instruction whose handler raises takes the fault, with the opcode in `ir`. -/
theorem exec_of_handler_error {i : Instr} {s : State} {c : FaultCause} (h : handler i s = .error c) :
    exec i s = .next (takeFault s (some s.ir) c) := by
  rw [exec_eq_finish, h, finish_error]

end Sys2Proof.Machine
end

section
/-! PROOFS. The statements of 41_halt_and_data.md: LDI and PRN. -/

namespace Sys2Proof.Proofs

open Sys2Proof Sys2Proof.Machine

/-- Settles O13: the register index is checked before either write, so LDI makes both or takes the fault. -/
theorem ldiMeaning : Obligations.LdiMeaning := fun a b s =>
  ⟨fun h => exec_seq_of_handler_ok (i := .ldi a b) rfl (handleLdi_of_lt s b h),
   fun h => exec_of_handler_error (i := .ldi a b) (handleLdi_of_ge s b h)⟩

/-- Settles O14: every operand byte is an address in memory, so PRN always emits and completes. -/
theorem prnMeaning : Obligations.PrnMeaning := fun a s =>
  exec_seq_of_handler_ok (i := .prn a) rfl (handlePrn_eq a s)

end Sys2Proof.Proofs
end

section
/-! SUPPORT. The ALU's two outputs in use: when the comparison gives each flag, and the bound of the product
(42_alu.md R152, R153). -/

namespace Sys2Proof.Machine

theorem compareFlag_of_gt {x y : Byte} (h : y.toNat < x.toNat) : compareFlag x y = .greater := if_pos h

theorem compareFlag_of_eq {x y : Byte} (h : x.toNat = y.toNat) : compareFlag x y = .equal := by
  rw [compareFlag, if_neg (by omega), if_pos h]

theorem compareFlag_of_lt {x y : Byte} (h : x.toNat < y.toNat) : compareFlag x y = .less := by
  rw [compareFlag, if_neg (by omega), if_neg (by omega)]

/-- Each flag is given by its own order of the two unsigned values, and NONE by no pair. -/
theorem compareFlag_spec (x y : Byte) :
    (compareFlag x y = .greater ↔ y.toNat < x.toNat) ∧ (compareFlag x y = .equal ↔ x.toNat = y.toNat) ∧
      (compareFlag x y = .less ↔ x.toNat < y.toNat) ∧ compareFlag x y ≠ .none := by
  rcases Nat.lt_trichotomy x.toNat y.toNat with h | h | h
  · simp [compareFlag_of_lt h, h, h.ne, h.le]
  · simp [compareFlag_of_eq h, h]
  · simp [compareFlag_of_gt h, h, h.ne', h.le]

theorem product_le (x y : Byte) : x.toNat * y.toNat ≤ 65025 :=
  Nat.mul_le_mul (Nat.le_of_lt_succ x.isLt) (Nat.le_of_lt_succ y.isLt)

end Sys2Proof.Machine
end

section
/-! PROOFS. The statements of 42_alu.md: the ALU's MUL and CMP, and the two instructions. -/

namespace Sys2Proof.Proofs

open Sys2Proof Sys2Proof.Machine

/-- Settles O15: both indices are checked before the store, and each ALU input is the cell just copied, `a = b`
included. -/
theorem mulMeaning : Obligations.MulMeaning := fun a b s =>
  ⟨fun ha hb => ⟨_, BitVec.toNat_ofNat _ 8,
     exec_seq_of_handler_ok (i := .mul a b) rfl (handleMul_of_lt s ha hb)⟩,
   fun ha => exec_of_handler_error (i := .mul a b) (handleMul_of_ge_left s b ha),
   fun ha hb => exec_of_handler_error (i := .mul a b) (handleMul_of_ge_right s ha hb)⟩

/-- Settles O16: both indices are checked before the flag is written, and the flag is the comparison of the two
copied cells. -/
theorem cmpMeaning : Obligations.CmpMeaning := fun a b s =>
  ⟨fun ha hb =>
     have ⟨hgt, heq, hlt, hne⟩ := compareFlag_spec (s.mem.read a.toNat) (s.mem.read b.toNat)
     ⟨_, hgt, heq, hlt, hne, exec_seq_of_handler_ok (i := .cmp a b) rfl (handleCmp_of_lt s ha hb)⟩,
   fun ha => exec_of_handler_error (i := .cmp a b) (handleCmp_of_ge_left s b ha),
   fun ha hb => exec_of_handler_error (i := .cmp a b) (handleCmp_of_ge_right s ha hb)⟩

/-- Settles O8: the 8-bit result is the product modulo 256, and each factor is at most 255. -/
theorem aluMultiplies : Obligations.AluMultiplies := fun x y =>
  ⟨_, rfl, BitVec.toNat_ofNat _ 8, product_le x y⟩

/-- Settles O9: the two unsigned values are in exactly one of the three orders. -/
theorem aluCompares : Obligations.AluCompares := fun x y =>
  ⟨_, rfl, compareFlag_spec x y⟩

end Sys2Proof.Proofs
end

section
/-! SUPPORT. The conditional jumps: when each condition holds, what the handler then is, and what an
instruction of class COND answers when its handler leaves `pc` alone or moves it (40_execution_engine.md R111,
43_jumps.md R171, R172). -/

namespace Sys2Proof.Machine

@[simp] theorem equalHolds_iff (s : State) : equalHolds s = true ↔ s.fl = .equal := by simp [equalHolds]

@[simp] theorem notEqualHolds_iff (s : State) : notEqualHolds s = true ↔ s.fl = .less ∨ s.fl = .greater := by
  simp [notEqualHolds]

theorem handler_jeq_of_equal {s : State} (a : Byte) (h : s.fl = .equal) : handler (.jeq a) s = jumpTo s a :=
  if_pos ((equalHolds_iff s).2 h)

theorem handler_jeq_of_ne {s : State} (a : Byte) (h : s.fl ≠ .equal) : handler (.jeq a) s = .ok s :=
  if_neg (mt (equalHolds_iff s).1 h)

theorem handler_jne_of_less_or_greater {s : State} (a : Byte) (h : s.fl = .less ∨ s.fl = .greater) :
    handler (.jne a) s = jumpTo s a :=
  if_pos ((notEqualHolds_iff s).2 h)

/-- EQUAL and NONE are the two flags that do not meet JNE's condition. -/
theorem handler_jne_of_equal_or_none {s : State} (a : Byte) (h : s.fl = .equal ∨ s.fl = .none) :
    handler (.jne a) s = .ok s := by
  refine if_neg (mt (notEqualHolds_iff s).1 ?_)
  rcases h with h | h <;> simp [h]

/-- A conditional jump whose handler leaves `pc` alone falls through to the next instruction (R111). -/
theorem exec_cond_of_pc_eq {i : Instr} {s u : State} (hcond : i.op.pcClass = .cond)
    (h : handler i s = .ok u) (hpc : u.pc = s.pc) : exec i s = .next { u with pc := s.pc + i.op.length } := by
  rw [exec_eq_finish, h, finish_ok, hcond, nextPc, if_pos hpc]

/-- A conditional jump whose handler moves `pc` keeps that `pc` (R111). -/
theorem exec_cond_of_pc_ne {i : Instr} {s u : State} (hcond : i.op.pcClass = .cond)
    (h : handler i s = .ok u) (hpc : u.pc ≠ s.pc) : exec i s = .next u := by
  rw [exec_eq_finish, h, finish_ok, hcond, nextPc, if_neg hpc]

/-- A conditional jump that is taken goes to its target, or falls through where that is its own address (R111;
90_conflicts.md C5). -/
theorem exec_cond_of_jumpTo {i : Instr} {s : State} {a : Byte} (hcond : i.op.pcClass = .cond)
    (h : handler i s = jumpTo s a) (ha : a.toNat < 8) :
    ((s.mem.read s.regs[a.toNat].toNat).toNat ≠ s.pc →
      exec i s = .next { s with pc := (s.mem.read s.regs[a.toNat].toNat).toNat }) ∧
    ((s.mem.read s.regs[a.toNat].toNat).toNat = s.pc → exec i s = .next { s with pc := s.pc + i.op.length }) :=
  have hok := h.trans (jumpTo_of_lt s ha)
  ⟨exec_cond_of_pc_ne hcond hok, exec_cond_of_pc_eq hcond hok⟩

end Sys2Proof.Machine
end

section
/-! PROOFS. The statements of 43_jumps.md: JMP, JEQ and JNE. -/

namespace Sys2Proof.Proofs

open Sys2Proof Sys2Proof.Machine

/-- Settles O17: the register index is checked before memory is read, and the cell it points to always exists. -/
theorem jmpMeaning : Obligations.JmpMeaning := fun a s =>
  ⟨fun h => exec_jmp_of_lt s h,
   fun h => exec_of_handler_error (i := .jmp a) (jumpTo_of_ge s h)⟩

/-- Settles O18: under EQUAL the handler is JMP's, and otherwise it does nothing, so the operand goes unchecked. -/
theorem jeqMeaning : Obligations.JeqMeaning := fun a _ =>
  ⟨fun hfl => exec_cond_of_pc_eq (i := .jeq a) rfl (handler_jeq_of_ne a hfl) rfl,
   fun hfl ha => exec_cond_of_jumpTo (i := .jeq a) rfl (handler_jeq_of_equal a hfl) ha,
   fun hfl ha => exec_of_handler_error ((handler_jeq_of_equal a hfl).trans (jumpTo_of_ge _ ha))⟩

/-- Settles O19: under LESS and GREATER the handler is JMP's, and under EQUAL and NONE it does nothing. -/
theorem jneMeaning : Obligations.JneMeaning := fun a _ =>
  ⟨fun hfl => exec_cond_of_pc_eq (i := .jne a) rfl (handler_jne_of_equal_or_none a hfl) rfl,
   fun hfl ha => exec_cond_of_jumpTo (i := .jne a) rfl (handler_jne_of_less_or_greater a hfl) ha,
   fun hfl ha => exec_of_handler_error ((handler_jne_of_less_or_greater a hfl).trans (jumpTo_of_ge _ ha))⟩

end Sys2Proof.Proofs
end

section
/-! SUPPORT. The two ends of the stack pointer's range: the address outside memory that PUSH or POP raises there
(44_stack.md R194). -/

namespace Sys2Proof.Machine

/-- The address `sp - 1` is not reduced modulo 256, so at `sp = 0` it is -1 (R190). -/
theorem handlePush_of_sp_zero (a : Byte) {s : State} (h : s.sp = 0) :
    handlePush a s = .error (.memBounds (-1)) := by
  have haddr : pushAddr s = -1 := by rw [pushAddr, h]; rfl
  rw [handlePush_of_out a (by omega), haddr]

theorem handlePop_of_sp_256 (a : Byte) {s : State} (h : s.sp = 256) :
    handlePop a s = .error (.memBounds 256) := by
  have haddr : popAddr s = 256 := by rw [popAddr, h]; rfl
  rw [handlePop_of_gt a (by omega), haddr]

end Sys2Proof.Machine
end

section
/-! PROOFS. The statements of 44_stack.md: PUSH and POP. -/

namespace Sys2Proof.Proofs

open Sys2Proof Sys2Proof.Machine

/-- Settles O20: the operand byte always addresses a cell, so only the store at `sp - 1` can raise, and it does
at `sp = 0`. -/
theorem pushMeaning : Obligations.PushMeaning := fun a _ =>
  ⟨fun hlo hhi => exec_seq_of_handler_ok (i := .push a) rfl (handlePush_of_in a ⟨hlo, hhi⟩),
   fun hzero => exec_of_handler_error (i := .push a) (handlePush_of_sp_zero a hzero)⟩

/-- Settles O21: the operand byte always addresses a cell, so only the read at `sp` can raise, and it does at
`sp = 256`. -/
theorem popMeaning : Obligations.PopMeaning := fun a _ =>
  ⟨fun hle => exec_seq_of_handler_ok (i := .pop a) rfl (handlePop_of_le a hle),
   fun htop => exec_of_handler_error (i := .pop a) (handlePop_of_sp_256 a htop)⟩

end Sys2Proof.Proofs
end

section
/-! SUPPORT. What a handler raises: for each handler the checks that fail, then, over all of them,
everything a handler can raise (60_exceptions.md R212, R213). -/

namespace Sys2Proof.Machine

/-- A handler that checks a register index first raises at that index or, with the index in range, as the rest of
it does. -/
theorem eq_error_iff_of_index {a : Byte} {r : Except FaultCause State} {c : FaultCause} {P : Prop}
    (hbad : 8 ≤ a.toNat → r = .error (.regBounds a)) (hgood : a.toNat < 8 → (r = .error c ↔ P)) :
    r = .error c ↔ (8 ≤ a.toNat ∧ c = .regBounds a) ∨ (a.toNat < 8 ∧ P) := by
  rcases Nat.lt_or_ge a.toNat 8 with ha | ha
  · simp [hgood ha, ha]
  · simp [hbad ha, ha, Nat.not_lt.2 ha, eq_comm]

/-- The same for a handler that completes once the index is in range. -/
theorem eq_error_iff_of_one_index {a : Byte} {r : Except FaultCause State} {c : FaultCause}
    (hbad : 8 ≤ a.toNat → r = .error (.regBounds a)) (hgood : a.toNat < 8 → ∃ u, r = .ok u) :
    r = .error c ↔ 8 ≤ a.toNat ∧ c = .regBounds a := by
  rw [eq_error_iff_of_index (P := False) hbad, and_false, or_false]
  intro ha
  obtain ⟨u, rfl⟩ := hgood ha
  simp

theorem handleLdi_eq_error {a b : Byte} {s : State} {c : FaultCause} :
    handleLdi a b s = .error c ↔ 8 ≤ a.toNat ∧ c = .regBounds a :=
  eq_error_iff_of_one_index (handleLdi_of_ge s b) fun ha => ⟨_, handleLdi_of_lt s b ha⟩

theorem jumpTo_eq_error {a : Byte} {s : State} {c : FaultCause} :
    jumpTo s a = .error c ↔ 8 ≤ a.toNat ∧ c = .regBounds a :=
  eq_error_iff_of_one_index (jumpTo_of_ge s) fun ha => ⟨_, jumpTo_of_lt s ha⟩

theorem handleMul_eq_error {a b : Byte} {s : State} {c : FaultCause} : handleMul a b s = .error c ↔
    (8 ≤ a.toNat ∧ c = .regBounds a) ∨ (a.toNat < 8 ∧ 8 ≤ b.toNat ∧ c = .regBounds b) :=
  eq_error_iff_of_index (handleMul_of_ge_left s b) fun ha =>
    eq_error_iff_of_one_index (handleMul_of_ge_right s ha) fun hb => ⟨_, handleMul_of_lt s ha hb⟩

theorem handleCmp_eq_error {a b : Byte} {s : State} {c : FaultCause} : handleCmp a b s = .error c ↔
    (8 ≤ a.toNat ∧ c = .regBounds a) ∨ (a.toNat < 8 ∧ 8 ≤ b.toNat ∧ c = .regBounds b) :=
  eq_error_iff_of_index (handleCmp_of_ge_left s b) fun ha =>
    eq_error_iff_of_one_index (handleCmp_of_ge_right s ha) fun hb => ⟨_, handleCmp_of_lt s ha hb⟩

theorem handler_jeq_eq_error {a : Byte} {s : State} {c : FaultCause} :
    handler (.jeq a) s = .error c ↔ s.fl = .equal ∧ 8 ≤ a.toNat ∧ c = .regBounds a := by
  by_cases hfl : s.fl = .equal
  · simp [handler_jeq_of_equal a hfl, jumpTo_eq_error, hfl]
  · simp [handler_jeq_of_ne a hfl, hfl]

theorem handler_jne_eq_error {a : Byte} {s : State} {c : FaultCause} :
    handler (.jne a) s = .error c ↔ (s.fl = .less ∨ s.fl = .greater) ∧ 8 ≤ a.toNat ∧ c = .regBounds a := by
  by_cases hfl : s.fl = .less ∨ s.fl = .greater
  · simp [handler_jne_of_less_or_greater a hfl, jumpTo_eq_error, hfl]
  · simp [handler, hfl]

/-- With `sp` in its range only the store at `sp - 1` can raise, and only at `sp = 0` (44_stack.md R194). -/
theorem handlePush_eq_error {a : Byte} {s : State} (hsp : s.sp ≤ 256) {c : FaultCause} :
    handlePush a s = .error c ↔ s.sp = 0 ∧ c = .memBounds (-1) := by
  rcases Nat.eq_zero_or_pos s.sp with h | h
  · simp [handlePush_of_sp_zero a h, h, eq_comm]
  · simp [handlePush_of_in a ⟨h, hsp⟩, h.ne']

/-- With `sp` in its range only the read at `sp` can raise, and only at `sp = 256` (44_stack.md R194). -/
theorem handlePop_eq_error {a : Byte} {s : State} (hsp : s.sp ≤ 256) {c : FaultCause} :
    handlePop a s = .error c ↔ s.sp = 256 ∧ c = .memBounds 256 := by
  rcases hsp.eq_or_lt with h | h
  · simp [handlePop_of_sp_256 a h, h, eq_comm]
  · simp [handlePop_of_le a (Nat.le_of_lt_succ h), h.ne]

/-- The instruction checks `index` under the flag `fl`, every check before that one passes, and `index` names no
register (60_exceptions.md R213). -/
def BadIndex (fl : Flag) (index : Byte) : Instr → Prop
  | .hlt => False
  | .ldi a _ => 8 ≤ a.toNat ∧ index = a
  | .prn _ => False
  | .mul a b => (8 ≤ a.toNat ∧ index = a) ∨ (a.toNat < 8 ∧ 8 ≤ b.toNat ∧ index = b)
  | .cmp a b => (8 ≤ a.toNat ∧ index = a) ∨ (a.toNat < 8 ∧ 8 ≤ b.toNat ∧ index = b)
  | .jmp a => 8 ≤ a.toNat ∧ index = a
  | .jeq a => fl = .equal ∧ 8 ≤ a.toNat ∧ index = a
  | .jne a => (fl = .less ∨ fl = .greater) ∧ 8 ≤ a.toNat ∧ index = a
  | .push _ => False
  | .pop _ => False

/-- Everything a handler can raise: RegBounds at the first index out of range, and MemBounds from PUSH and POP at
the two ends of the range of `sp`. -/
theorem handler_eq_error {i : Instr} {s : State} (hsp : s.sp ≤ 256) {c : FaultCause} :
    handler i s = .error c ↔ (∃ index, BadIndex s.fl index i ∧ c = .regBounds index) ∨
      (i.op = .push ∧ s.sp = 0 ∧ c = .memBounds (-1)) ∨ (i.op = .pop ∧ s.sp = 256 ∧ c = .memBounds 256) := by
  cases i with
  | hlt => simp [handler, BadIndex, Instr.op]
  | ldi a b => simp [handler, handleLdi_eq_error, BadIndex, Instr.op, and_assoc]
  | prn a => simp [handler, handlePrn_eq, BadIndex, Instr.op]
  | mul a b => simp [handler, handleMul_eq_error, BadIndex, Instr.op, and_assoc, or_and_right, exists_or]
  | cmp a b => simp [handler, handleCmp_eq_error, BadIndex, Instr.op, and_assoc, or_and_right, exists_or]
  | jmp a => simp [handler, jumpTo_eq_error, BadIndex, Instr.op, and_assoc]
  | jeq a => simp [handler_jeq_eq_error, BadIndex, Instr.op, and_assoc]
  | jne a => simp [handler_jne_eq_error, BadIndex, Instr.op, and_assoc]
  | push a => simp [handler, handlePush_eq_error hsp, BadIndex, Instr.op]
  | pop a => simp [handler, handlePop_eq_error hsp, BadIndex, Instr.op]

theorem handler_eq_error_memBounds {i : Instr} {s : State} (hsp : s.sp ≤ 256) {addr : Int} :
    handler i s = .error (.memBounds addr) ↔
      (i.op = .push ∧ s.sp = 0 ∧ addr = -1) ∨ (i.op = .pop ∧ s.sp = 256 ∧ addr = 256) := by
  simp [handler_eq_error hsp]

theorem handler_eq_error_regBounds {i : Instr} {s : State} (hsp : s.sp ≤ 256) {index : Byte} :
    handler i s = .error (.regBounds index) ↔ BadIndex s.fl index i := by
  simp [handler_eq_error hsp]

end Sys2Proof.Machine
end

section
/-! SUPPORT. What a step raises: the three places a fault can come from, and the record that the step leaves
exactly then (40_execution_engine.md R114, 60_exceptions.md R217). -/

namespace Sys2Proof.Machine

/-- A step in `s` raises `c`: in its fetch, in the lookup, or in the handler of the instruction at `pc`. -/
def StepRaises (m : OpcodeMap) (s : State) (c : FaultCause) : Prop :=
  (∃ o, fetch s = .error (o, c)) ∨
  (s.pc ≤ 253 ∧ m.lookup (s.mem.read s.pc) = none ∧ c = .decodeError (s.mem.read s.pc)) ∨
  ∃ i, instrAt m s = some i ∧ handler i (latchIR s (s.mem.read s.pc)) = .error c

/-- The opcode byte a fault in `s` records: the byte at `pc` where there is one (R217). -/
def recordedOpcode (s : State) : Option Byte := if s.pc ≤ 255 then some (s.mem.read s.pc) else none

theorem recordedOpcode_of_le {s : State} (h : s.pc ≤ 255) : recordedOpcode s = some (s.mem.read s.pc) := if_pos h

theorem recordedOpcode_of_instrAt {m : OpcodeMap} {s : State} {i : Instr} (h : instrAt m s = some i) :
    recordedOpcode s = some (s.mem.read s.pc) :=
  recordedOpcode_of_le ((instrAt_eq_some.1 h).1.trans (by decide))

theorem recordedOpcode_of_fetch_error {s : State} {o : Option Byte} {c : FaultCause}
    (h : fetch s = .error (o, c)) : recordedOpcode s = o := by
  obtain ⟨hp, rfl, -⟩ | ⟨hp, rfl, -⟩ := fetch_eq_error.1 h
  · exact recordedOpcode_of_le (by omega)
  · exact if_neg (by omega)

/-- A step that raises takes the fault and does nothing else (R216). -/
theorem cycle_of_stepRaises {m : OpcodeMap} {s : State} {c : FaultCause} (hr : s.runState = .running)
    (h : StepRaises m s c) : cycle m s = .next (takeFault s (recordedOpcode s) c) := by
  obtain ⟨o, hf⟩ | ⟨hp, hl, rfl⟩ | ⟨i, hi, hh⟩ := h
  · rw [cycle_of_fetch_error hr hf, recordedOpcode_of_fetch_error hf]
  · rw [cycle_of_lookup_none hr (fetch_of_le s hp) hl, recordedOpcode_of_le (by omega)]
  · rw [cycle_of_instrAt hr hi, exec_of_handler_error hh, recordedOpcode_of_instrAt hi]
    rfl

/-- A step that raises nothing keeps the fault record. -/
theorem stepRaises_or_fault_eq {m : OpcodeMap} {s t : State} (h : cycle m s = .next t) :
    (∃ c, StepRaises m s c) ∨ t.fault = s.fault := by
  obtain ⟨-, ⟨hp, -⟩ | ⟨hp, hl, -⟩ | ⟨i, c, hi, hh, -⟩ | ⟨i, u, -, hh, rfl⟩⟩ := cycle_cases h
  · refine .inl ?_
    rcases Nat.lt_or_ge s.pc 256 with hq | hq
    · exact ⟨_, .inl ⟨_, fetch_of_top s (by omega)⟩⟩
    · exact ⟨_, .inl ⟨_, fetch_of_ge s hq⟩⟩
  · exact .inl ⟨_, .inr (.inl ⟨hp, hl, rfl⟩)⟩
  · exact .inl ⟨c, .inr (.inr ⟨i, hi, hh⟩)⟩
  · exact .inr (handler_ok_engine hh).1

/-- The record a step leaves is that of the fault it raised. -/
theorem cycle_fault_eq_some {m : OpcodeMap} {s t : State} {r : FaultRecord} (hs : s.fault = none)
    (h : cycle m s = .next t) :
    t.fault = some r ↔ StepRaises m s r.cause ∧ r.pc = s.pc ∧ r.opcode = recordedOpcode s := by
  have hrun := running_of_cycle h
  have htake {c : FaultCause} (hc : StepRaises m s c) : t.fault = some ⟨c, s.pc, recordedOpcode s⟩ := by
    rw [cycle_of_stepRaises hrun hc] at h
    injection h with h
    rw [← h, takeFault_fault]
  constructor
  · intro hr
    obtain ⟨c, hc⟩ | hkeep := stepRaises_or_fault_eq h
    · cases hr.symm.trans (htake hc)
      exact ⟨hc, rfl, rfl⟩
    · cases hr.symm.trans (hkeep.trans hs)
  · obtain ⟨c, pc, o⟩ := r
    rintro ⟨hc, rfl, rfl⟩
    exact htake hc

/-- A step leaves a record of the cause `c` exactly if it raises `c`. -/
theorem cycle_records_iff {m : OpcodeMap} {s t : State} {c : FaultCause} (hs : s.fault = none)
    (h : cycle m s = .next t) : (∃ r, t.fault = some r ∧ r.cause = c) ↔ StepRaises m s c := by
  simp only [cycle_fault_eq_some hs h]
  constructor
  · rintro ⟨r, ⟨hc, -, -⟩, rfl⟩
    exact hc
  · exact fun hc => ⟨⟨c, s.pc, recordedOpcode s⟩, ⟨hc, rfl, rfl⟩, rfl⟩

theorem opAt_eq_some_iff_instrAt {m : OpcodeMap} {s : State} {op : Op} :
    opAt m s = some op ↔ ∃ i, instrAt m s = some i ∧ i.op = op := by
  simp [instrAt, Op.assemble_op]

/-- The accesses that raise MemBounds: the two of the fetch, and the two of the stack (R212). -/
theorem stepRaises_memBounds {m : OpcodeMap} {s : State} (hsp : s.sp ≤ 256) {addr : Int} :
    StepRaises m s (.memBounds addr) ↔
      (256 ≤ s.pc ∧ addr = s.pc) ∨ ((s.pc = 254 ∨ s.pc = 255) ∧ addr = 256) ∨
      (opAt m s = some .push ∧ s.sp = 0 ∧ addr = -1) ∨ (opAt m s = some .pop ∧ s.sp = 256 ∧ addr = 256) := by
  have hfetch : (∃ o, fetch s = .error (o, .memBounds addr)) ↔
      (256 ≤ s.pc ∧ addr = s.pc) ∨ ((s.pc = 254 ∨ s.pc = 255) ∧ addr = 256) := by
    simp [fetch_eq_error, exists_or, or_comm]
  have hhandler : (∃ i, instrAt m s = some i ∧
        handler i (latchIR s (s.mem.read s.pc)) = .error (.memBounds addr)) ↔
      (opAt m s = some .push ∧ s.sp = 0 ∧ addr = -1) ∨ (opAt m s = some .pop ∧ s.sp = 256 ∧ addr = 256) := by
    have hlatch : (latchIR s (s.mem.read s.pc)).sp ≤ 256 := hsp
    simp only [handler_eq_error_memBounds hlatch, latchIR_sp, opAt_eq_some_iff_instrAt, and_or_left, exists_or,
      ← and_assoc, exists_and_right]
  simp [StepRaises, hfetch, hhandler, or_assoc]

/-- RegBounds is raised by a handler only: neither the fetch nor the lookup checks an index (R213). -/
theorem stepRaises_regBounds {m : OpcodeMap} {s : State} (hsp : s.sp ≤ 256) {index : Byte} :
    StepRaises m s (.regBounds index) ↔ ∃ i, instrAt m s = some i ∧ BadIndex s.fl index i := by
  have hlatch : (latchIR s (s.mem.read s.pc)).sp ≤ 256 := hsp
  simp [StepRaises, fetch_eq_error, handler_eq_error_regBounds hlatch]

end Sys2Proof.Machine
end

section
/-! PROOFS. The statements of 60_exceptions.md: MemBounds and RegBounds. -/

namespace Sys2Proof.Proofs

open Sys2Proof Sys2Proof.Machine

/-- Settles O33: an operand byte always addresses a cell, so once the fetch has succeeded only the stack accesses
can miss memory, and with `sp` in its range each misses at one end. -/
theorem memBoundsExactly : Obligations.MemBoundsExactly := by
  intro m s t addr hs h
  have hnone : s.fault = none := hs.fault_eq_none (running_of_cycle h)
  exact ⟨(cycle_records_iff hnone h).trans (stepRaises_memBounds hs.sp_le),
    fun r hr _ => ((cycle_fault_eq_some hnone h).1 hr).2⟩

/-- Settles O34: only a handler raises RegBounds, at the first index it checks that names no register, so the
opcode byte was fetched. -/
theorem regBoundsExactly : Obligations.RegBoundsExactly := by
  intro m s t index hs h
  have hnone : s.fault = none := hs.fault_eq_none (running_of_cycle h)
  refine ⟨(cycle_records_iff hnone h).trans (stepRaises_regBounds hs.sp_le), ?_⟩
  intro r hr hc
  obtain ⟨hraise, hpc, hop⟩ := (cycle_fault_eq_some hnone h).1 hr
  obtain ⟨i, hi, -⟩ := (stepRaises_regBounds hs.sp_le).1 (hc ▸ hraise)
  exact ⟨hpc, hop.trans (recordedOpcode_of_instrAt hi)⟩

end Sys2Proof.Proofs
end

section
/-! SUPPORT. The instructions' lengths, and the one form that HLT and CMP each have. -/

namespace Sys2Proof

theorem Op.length_le (op : Op) : op.length ≤ 3 := by cases op <;> decide

theorem Instr.operands_length (i : Instr) : i.operands.length = i.op.operandCount := by cases i <;> rfl

theorem Instr.eq_hlt_of_op {i : Instr} (h : i.op = .hlt) : i = .hlt := by
  cases i with
  | hlt => rfl
  | _ => cases h

theorem Instr.eq_cmp_of_op {i : Instr} (h : i.op = .cmp) : ∃ a b, i = .cmp a b := by
  cases i with
  | cmp a b => exact ⟨a, b, rfl⟩
  | _ => cases h

end Sys2Proof
end

section
/-! SUPPORT. What a handler that completes has done: one constructor per way to complete, and from these, once
for all instructions, which byte of memory, which registers and which special state it may have changed
(20_memory.md and 10_state.md, the tables of writes). -/

namespace Sys2Proof.Machine

/-- The handler of the instruction completes from `s` in the given state. A conditional jump completes with its
jump or with none. -/
inductive Completes : Instr → State → State → Prop
  | hlt (s : State) : Completes .hlt s { s with runState := .halted }
  | ldi (s : State) {a : Byte} (b : Byte) (ha : a.toNat < 8) : Completes (.ldi a b) s
      { s with regs := s.regs.set a.toNat b ha, mem := s.mem.write a.toNat b }
  | prn (s : State) (a : Byte) : Completes (.prn a) s (emit s (s.mem.read a.toNat))
  | mul (s : State) {a b : Byte} (ha : a.toNat < 8) (hb : b.toNat < 8) : Completes (.mul a b) s
      { s with regs := (s.regs.set a.toNat (s.mem.read a.toNat) ha).set b.toNat (s.mem.read b.toNat) hb,
               mem := s.mem.write a.toNat
                 (BitVec.ofNat 8 ((s.mem.read a.toNat).toNat * (s.mem.read b.toNat).toNat)) }
  | cmp (s : State) {a b : Byte} (ha : a.toNat < 8) (hb : b.toNat < 8) : Completes (.cmp a b) s
      { s with regs := (s.regs.set a.toNat (s.mem.read a.toNat) ha).set b.toNat (s.mem.read b.toNat) hb,
               fl := compareFlag (s.mem.read a.toNat) (s.mem.read b.toNat) }
  | jump {i : Instr} (s : State) {a : Byte} (hi : i ∈ [.jmp a, .jeq a, .jne a]) (ha : a.toNat < 8) :
      Completes i s { s with pc := (s.mem.read s.regs[a.toNat].toNat).toNat }
  | fallThrough {i : Instr} (s : State) {a : Byte} (hi : i ∈ [.jeq a, .jne a]) : Completes i s s
  | push (s : State) (a : Byte) (hsp : 1 ≤ s.sp ∧ s.sp ≤ 256) : Completes (.push a) s
      { s with mem := s.mem.write (s.sp - 1) (s.mem.read a.toNat), sp := s.sp - 1 }
  | pop (s : State) (a : Byte) (hsp : s.sp ≤ 255) : Completes (.pop a) s
      { s with mem := s.mem.write a.toNat (s.mem.read s.sp), sp := s.sp + 1 }

/-- A handler that checks a register index first completes only with the index in range. -/
theorem index_lt_of_ok {a : Byte} {r : Except FaultCause State} {u : State}
    (hbad : 8 ≤ a.toNat → r = .error (.regBounds a)) (h : r = .ok u) : a.toNat < 8 := by
  by_contra hge
  cases (hbad (Nat.le_of_not_lt hge)).symm.trans h

theorem completes_of_jumpTo {i : Instr} {s u : State} {a : Byte} (hi : i ∈ [.jmp a, .jeq a, .jne a])
    (h : jumpTo s a = .ok u) : Completes i s u := by
  have ha := index_lt_of_ok (jumpTo_of_ge s) h
  cases (jumpTo_of_lt s ha).symm.trans h
  exact .jump s hi ha

/-- A conditional jump completes by its jump or by falling through. -/
theorem completes_of_jumpIf {i : Instr} {s u : State} {a : Byte} {c : Bool} (hi : i ∈ [.jeq a, .jne a])
    (h : (if c then jumpTo s a else .ok s) = .ok u) : Completes i s u := by
  cases c with
  | true => exact completes_of_jumpTo (List.mem_cons_of_mem _ hi) h
  | false =>
    cases h
    exact .fallThrough s hi

theorem completes_of_handler_ok {i : Instr} {s u : State} (h : handler i s = .ok u) : Completes i s u := by
  cases i with
  | hlt =>
    cases h
    exact .hlt s
  | ldi a b =>
    have ha := index_lt_of_ok (handleLdi_of_ge s b) h
    cases (handleLdi_of_lt s b ha).symm.trans h
    exact .ldi s b ha
  | prn a =>
    cases (handlePrn_eq a s).symm.trans h
    exact .prn s a
  | mul a b =>
    have ha := index_lt_of_ok (handleMul_of_ge_left s b) h
    have hb := index_lt_of_ok (handleMul_of_ge_right s ha) h
    cases (handleMul_of_lt s ha hb).symm.trans h
    exact .mul s ha hb
  | cmp a b =>
    have ha := index_lt_of_ok (handleCmp_of_ge_left s b) h
    have hb := index_lt_of_ok (handleCmp_of_ge_right s ha) h
    cases (handleCmp_of_lt s ha hb).symm.trans h
    exact .cmp s ha hb
  | jmp a => exact completes_of_jumpTo (by simp) h
  | jeq a => exact completes_of_jumpIf (a := a) (by simp) h
  | jne a => exact completes_of_jumpIf (a := a) (by simp) h
  | push a =>
    by_cases hsp : 1 ≤ s.sp ∧ s.sp ≤ 256
    · cases (handlePush_of_in a hsp).symm.trans h
      exact .push s a hsp
    · cases (handlePush_of_out a hsp).symm.trans h
  | pop a =>
    rcases Nat.lt_or_ge 255 s.sp with hsp | hsp
    · cases (handlePop_of_gt a hsp).symm.trans h
    · cases (handlePop_of_le a hsp).symm.trans h
      exact .pop s a hsp

theorem Completes.sp_eq {i : Instr} {s u : State} (h : Completes i s u) (hpush : i.op ≠ .push)
    (hpop : i.op ≠ .pop) : u.sp = s.sp := by
  cases h with
  | push => exact absurd rfl hpush
  | pop => exact absurd rfl hpop
  | _ => rfl

theorem Completes.fl_eq {i : Instr} {s u : State} (h : Completes i s u) (hcmp : i.op ≠ .cmp) : u.fl = s.fl := by
  cases h with
  | cmp => exact absurd rfl hcmp
  | _ => rfl

theorem Completes.fl_cmp {a b : Byte} {s u : State} (h : Completes (.cmp a b) s u) :
    u.fl = compareFlag (s.mem.read a.toNat) (s.mem.read b.toNat) := by
  cases h with
  | cmp => rfl
  | jump _ hi => simp at hi
  | fallThrough _ hi => simp at hi

theorem Completes.out_eq {i : Instr} {s u : State} (h : Completes i s u) (hprn : i.op ≠ .prn) : u.out = s.out := by
  cases h with
  | prn => exact absurd rfl hprn
  | _ => rfl

theorem Completes.ir_eq {i : Instr} {s u : State} (h : Completes i s u) : u.ir = s.ir := by
  cases h <;> rfl

/-- No handler moves `pc` but a jump's, and a jump's target is a byte. -/
theorem Completes.pc_eq_or_lt {i : Instr} {s u : State} (h : Completes i s u) : u.pc = s.pc ∨ u.pc < 256 := by
  cases h with
  | jump => exact .inr (BitVec.isLt _)
  | _ => exact .inl rfl

/-- PUSH and POP keep `sp` in its range: each checks the address it uses before it moves `sp` (10_state.md R26). -/
theorem Completes.sp_le {i : Instr} {s u : State} (h : Completes i s u) (hs : s.sp ≤ 256) : u.sp ≤ 256 := by
  cases h with
  | push => exact (Nat.sub_le _ _).trans hs
  | pop _ _ hsp => exact Nat.succ_le_succ hsp
  | _ => exact hs

/-- The address an instruction stores to, if it is one that stores (20_memory.md, the table of accesses). -/
def storeAddr (s : State) : Instr → Option Int
  | .ldi a _ => some (operandAddr a)
  | .mul a _ => some (operandAddr a)
  | .pop a => some (operandAddr a)
  | .push _ => some (pushAddr s)
  | _ => none

/-- A handler writes at most one byte, at its store address, which exists. -/
theorem Completes.mem_eq {i : Instr} {s u : State} (h : Completes i s u) :
    u.mem = s.mem ∨ ∃ (k : Nat) (v : Byte), k < 256 ∧ storeAddr s i = some (k : Int) ∧ u.mem = s.mem.write k v := by
  cases h with
  | @ldi _ a => exact .inr ⟨a.toNat, _, a.isLt, rfl, rfl⟩
  | @mul _ a => exact .inr ⟨a.toNat, _, a.isLt, rfl, rfl⟩
  | push _ _ hsp => exact .inr ⟨s.sp - 1, _, by omega, congrArg some (by unfold pushAddr; omega), rfl⟩
  | pop _ a => exact .inr ⟨a.toNat, _, a.isLt, rfl, rfl⟩
  | _ => exact .inl rfl

theorem Completes.mem_wf {i : Instr} {s u : State} (h : Completes i s u) (hs : s.mem.wf = true) :
    u.mem.wf = true := by
  obtain hm | ⟨k, v, hk, -, hm⟩ := h.mem_eq
  · rwa [hm]
  · rw [hm]
    exact Memory.write_wf v hk hs

/-- Every address but the store address reads as before. -/
theorem Completes.read_eq {i : Instr} {s u : State} (h : Completes i s u) {x : Nat}
    (hx : storeAddr s i ≠ some (x : Int)) : u.mem.read x = s.mem.read x := by
  obtain hm | ⟨k, v, -, hk, hm⟩ := h.mem_eq
  · rw [hm]
  · have hne : x ≠ k := by
      rintro rfl
      exact hx hk
    rw [hm, Memory.read_write_of_ne _ _ hne]

/-- The operand bytes that name the registers an instruction writes (10_state.md, the table of register
writes). -/
def writtenRegs : Instr → List Byte
  | .ldi a _ => [a]
  | .mul a b => [a, b]
  | .cmp a b => [a, b]
  | _ => []

theorem getElem_set_set_of_ne (v : Vector Byte 8) {j k l : Nat} (x y : Byte) (hk : k < 8) (hl : l < 8) (hj : j < 8)
    (hjk : j ≠ k) (hjl : j ≠ l) : ((v.set k x hk).set l y hl)[j] = v[j] := by
  rw [Vector.getElem_set_ne _ _ hjl.symm, Vector.getElem_set_ne _ _ hjk.symm]

/-- Every register that no operand names for writing is unchanged. -/
theorem Completes.reg_eq {i : Instr} {s u : State} (h : Completes i s u) {j : Nat} (hj : j < 8)
    (hne : ∀ a ∈ writtenRegs i, j ≠ a.toNat) : u.regs[j] = s.regs[j] := by
  cases h with
  | @ldi _ a _ ha => exact Vector.getElem_set_ne ha hj (hne a (by simp [writtenRegs])).symm
  | @mul _ a b ha hb =>
    exact getElem_set_set_of_ne _ _ _ ha hb hj (hne a (by simp [writtenRegs])) (hne b (by simp [writtenRegs]))
  | @cmp _ a b ha hb =>
    exact getElem_set_set_of_ne _ _ _ ha hb hj (hne a (by simp [writtenRegs])) (hne b (by simp [writtenRegs]))
  | _ => rfl

end Sys2Proof.Machine
end

section
/-! SUPPORT. A step has two ends: it raises, and takes the fault with no other effect, or its instruction
completes (40_execution_engine.md R102). What one step keeps is read off these. -/

namespace Sys2Proof.Machine

theorem eq_takeFault_of_stepRaises {m : OpcodeMap} {s t : State} {c : FaultCause} (h : cycle m s = .next t)
    (hc : StepRaises m s c) : t = takeFault s (recordedOpcode s) c := by
  rw [cycle_of_stepRaises (running_of_cycle h) hc] at h
  injection h with h
  exact h.symm

/-- Past 253 the fetch of the three bytes raises. -/
theorem stepRaises_of_fetch {m : OpcodeMap} {s : State} (hp : 253 < s.pc) : ∃ c, StepRaises m s c := by
  rcases Nat.lt_or_ge s.pc 256 with hq | hq
  · exact ⟨_, .inl ⟨_, fetch_of_top s (by omega)⟩⟩
  · exact ⟨_, .inl ⟨_, fetch_of_ge s hq⟩⟩

/-- A step that answers a state raised a fault, or ran the handler at `pc` to its end and moved `pc`. -/
theorem cycle_ends {m : OpcodeMap} {s t : State} (h : cycle m s = .next t) :
    (∃ c, StepRaises m s c ∧ t = takeFault s (recordedOpcode s) c) ∨
    (∃ i u, instrAt m s = some i ∧ handler i (latchIR s (s.mem.read s.pc)) = .ok u ∧
      t = { u with pc := nextPc s.pc u.pc i.op.length i.op.pcClass }) := by
  have hraise (hex : ∃ c, StepRaises m s c) : ∃ c, StepRaises m s c ∧ t = takeFault s (recordedOpcode s) c :=
    hex.imp fun _ hc => ⟨hc, eq_takeFault_of_stepRaises h hc⟩
  obtain ⟨-, ⟨hp, -⟩ | ⟨hp, hl, -⟩ | ⟨i, c, hi, hh, -⟩ | hok⟩ := cycle_cases h
  · exact .inl (hraise (stepRaises_of_fetch hp))
  · exact .inl (hraise ⟨_, .inr (.inl ⟨hp, hl, rfl⟩)⟩)
  · exact .inl (hraise ⟨c, .inr (.inr ⟨i, hi, hh⟩)⟩)
  · exact .inr hok

theorem runState_ne_faulted_of_handler_ok {s u : State} {i : Instr} {ir : Byte} (hr : s.runState = .running)
    (h : handler i (latchIR s ir) = .ok u) : u.runState ≠ .faulted := by
  rw [(handler_ok_engine h).2, latchIR_runState, hr]
  split <;> decide

/-- In RUNNING, a step whose handler completes answers the handler's state with `pc` moved. -/
theorem cycle_of_handler_ok {m : OpcodeMap} {s u : State} {i : Instr} (hr : s.runState = .running)
    (hi : instrAt m s = some i) (h : handler i (latchIR s (s.mem.read s.pc)) = .ok u) :
    cycle m s = .next { u with pc := nextPc s.pc u.pc i.op.length i.op.pcClass } := by
  rw [cycle_of_instrAt hr hi, exec_eq_finish, h, finish_ok, afterExec_next,
    if_neg (runState_ne_faulted_of_handler_ok hr h)]
  rfl

/-- From an instruction whose three bytes are in memory, the sequencer leaves `pc` in 0..256 (10_state.md R25). -/
theorem nextPc_le {prePc postPc len : Nat} (c : PcClass) (hpre : prePc ≤ 253) (hlen : len ≤ 3)
    (hpost : postPc ≤ 256) : nextPc prePc postPc len c ≤ 256 := by
  have hseq : prePc + len ≤ 256 := Nat.add_le_add hpre hlen
  cases c with
  | seq => exact hseq
  | uncond => exact hpost
  | cond =>
    simp only [nextPc]
    split
    · exact hseq
    · exact hpost

theorem takeFault_keeps_inv {s : State} (hs : MachineInv s) (o : Option Byte) (c : FaultCause) :
    MachineInv (takeFault s o c) :=
  { mem_wf := hs.mem_wf
    pc_le := hs.pc_le
    sp_le := hs.sp_le
    fault_iff := by simp }

/-- An instruction that completes keeps the invariant: it leaves the record empty and does not end FAULTED. -/
theorem completes_keeps_inv {m : OpcodeMap} {s u : State} {i : Instr} (hs : MachineInv s)
    (hr : s.runState = .running) (hi : instrAt m s = some i)
    (h : handler i (latchIR s (s.mem.read s.pc)) = .ok u) :
    MachineInv { u with pc := nextPc s.pc u.pc i.op.length i.op.pcClass } := by
  have hdone := completes_of_handler_ok h
  have hp : s.pc ≤ 253 := (instrAt_eq_some.1 hi).1
  have hpc : u.pc ≤ 256 := hdone.pc_eq_or_lt.elim (fun heq => heq ▸ hs.pc_le) Nat.le_of_lt
  have hfault : u.fault = none := (handler_ok_engine h).1.trans (hs.fault_eq_none hr)
  have hrun : u.runState ≠ .faulted := runState_ne_faulted_of_handler_ok hr h
  exact
    { mem_wf := hdone.mem_wf hs.mem_wf
      pc_le := nextPc_le _ hp i.op.length_le hpc
      sp_le := hdone.sp_le hs.sp_le
      fault_iff := by simp [hfault, hrun] }

end Sys2Proof.Machine
end

section
/-! SUPPORT. What one step, and then a run, does to the flag register. -/

namespace Sys2Proof.Machine

/-- Only a step that dispatches to CMP writes `fl` (10_state.md R27). -/
theorem cycle_fl_eq {m : OpcodeMap} {s t : State} (h : cycle m s = .next t) (hne : opAt m s ≠ some .cmp) :
    t.fl = s.fl := by
  obtain ⟨c, -, rfl⟩ | ⟨i, u, hi, hh, rfl⟩ := cycle_ends h
  · rfl
  · have hop : i.op ≠ .cmp := fun hcmp => hne (hcmp ▸ opAt_of_instrAt hi)
    exact (completes_of_handler_ok hh).fl_eq hop

theorem runsAvoiding_cmp_fl_eq {m : OpcodeMap} {n : Nat} {s t : State} (h : RunsAvoiding m [.cmp] n s t) :
    t.fl = s.fl := by
  induction n generalizing s with
  | zero => rw [show t = s from h]
  | succ n ih =>
    obtain ⟨hne, u, hu, hrun⟩ := h
    rw [ih hrun, cycle_fl_eq hu (hne _ List.mem_cons_self)]

theorem compareFlag_mem (x y : Byte) :
    compareFlag x y = .equal ∨ compareFlag x y = .greater ∨ compareFlag x y = .less := by
  obtain ⟨-, -, -, hne⟩ := compareFlag_spec x y
  cases hf : compareFlag x y with
  | none => exact absurd hf hne
  | equal => exact .inl rfl
  | greater => exact .inr (.inl rfl)
  | less => exact .inr (.inr rfl)

/-- A step that runs CMP to its end leaves the comparison of the two cells in `fl` (42_alu.md R157). -/
theorem cycle_cmp_fl {m : OpcodeMap} {s t : State} {a b : Byte} (h : cycle m s = .next t)
    (ht : t.runState ≠ .faulted) (hi : instrAt m s = some (.cmp a b)) :
    t.fl = compareFlag (s.mem.read a.toNat) (s.mem.read b.toNat) := by
  obtain ⟨c, -, rfl⟩ | ⟨i, u, hi', hh, rfl⟩ := cycle_ends h
  · exact absurd (takeFault_runState _ _ _) ht
  · cases hi.symm.trans hi'
    exact (completes_of_handler_ok hh).fl_cmp

end Sys2Proof.Machine
end

section
/-! SUPPORT. The registers reach nothing but registers in the handlers other than the jumps' (10_state.md, the
table of register reads). -/

namespace Sys2Proof.Machine

/-- Two answers of a handler that are alike up to the registers. -/
def AlikeUpToRegs (x y : Except FaultCause State) : Prop := ∃ q, y = x.map fun u => { u with regs := q }

theorem alike_of_ok {x y : Except FaultCause State} {u : State} {q : Vector Byte 8} (hx : x = .ok u)
    (hy : y = .ok { u with regs := q }) : AlikeUpToRegs x y := ⟨q, by rw [hx, hy]; rfl⟩

theorem alike_of_error {x y : Except FaultCause State} {c : FaultCause} (hx : x = .error c)
    (hy : y = .error c) : AlikeUpToRegs x y := ⟨Vector.replicate 8 0, by rw [hx, hy]; rfl⟩

/-- Handlers that check the same register index are alike if they are with the index in range. -/
theorem alike_of_index {x y : Except FaultCause State} {a : Byte} (hx : 8 ≤ a.toNat → x = .error (.regBounds a))
    (hy : 8 ≤ a.toNat → y = .error (.regBounds a)) (hgood : a.toNat < 8 → AlikeUpToRegs x y) :
    AlikeUpToRegs x y :=
  (Nat.lt_or_ge a.toNat 8).elim hgood fun ha => alike_of_error (hx ha) (hy ha)

/-- Started with other register contents, a handler that is no jump's answers alike. -/
theorem handler_withRegs {i : Instr} (hi : i.op ∉ [Op.jmp, .jeq, .jne]) (s : State) (r : Vector Byte 8) :
    AlikeUpToRegs (handler i s) (handler i { s with regs := r }) := by
  cases i with
  | hlt => exact alike_of_ok rfl rfl
  | ldi a b =>
    exact alike_of_index (handleLdi_of_ge _ b) (handleLdi_of_ge _ b) fun ha =>
      alike_of_ok (handleLdi_of_lt _ b ha) (handleLdi_of_lt _ b ha)
  | prn a => exact alike_of_ok (handlePrn_eq a _) (handlePrn_eq a _)
  | mul a b =>
    exact alike_of_index (handleMul_of_ge_left _ b) (handleMul_of_ge_left _ b) fun ha =>
      alike_of_index (handleMul_of_ge_right _ ha) (handleMul_of_ge_right _ ha) fun hb =>
        alike_of_ok (handleMul_of_lt _ ha hb) (handleMul_of_lt _ ha hb)
  | cmp a b =>
    exact alike_of_index (handleCmp_of_ge_left _ b) (handleCmp_of_ge_left _ b) fun ha =>
      alike_of_index (handleCmp_of_ge_right _ ha) (handleCmp_of_ge_right _ ha) fun hb =>
        alike_of_ok (handleCmp_of_lt _ ha hb) (handleCmp_of_lt _ ha hb)
  | jmp a => simp [Instr.op] at hi
  | jeq a => simp [Instr.op] at hi
  | jne a => simp [Instr.op] at hi
  | push a =>
    by_cases hsp : 1 ≤ s.sp ∧ s.sp ≤ 256
    · exact alike_of_ok (handlePush_of_in a hsp) (handlePush_of_in a (s := { s with regs := r }) hsp)
    · exact alike_of_error (handlePush_of_out a hsp) (handlePush_of_out a (s := { s with regs := r }) hsp)
  | pop a =>
    rcases Nat.lt_or_ge 255 s.sp with hsp | hsp
    · exact alike_of_error (handlePop_of_gt a hsp) (handlePop_of_gt a (s := { s with regs := r }) hsp)
    · exact alike_of_ok (handlePop_of_le a hsp) (handlePop_of_le a (s := { s with regs := r }) hsp)

theorem handler_error_withRegs {i : Instr} (hi : i.op ∉ [Op.jmp, .jeq, .jne]) {s : State} {c : FaultCause}
    (h : handler i s = .error c) (r : Vector Byte 8) : handler i { s with regs := r } = .error c := by
  obtain ⟨q, hq⟩ := handler_withRegs hi s r
  rw [hq, h]
  rfl

theorem handler_ok_withRegs {i : Instr} (hi : i.op ∉ [Op.jmp, .jeq, .jne]) {s u : State}
    (h : handler i s = .ok u) (r : Vector Byte 8) : ∃ q, handler i { s with regs := r } = .ok { u with regs := q } := by
  obtain ⟨q, hq⟩ := handler_withRegs hi s r
  refine ⟨q, ?_⟩
  rw [hq, h]
  rfl

theorem op_notMem_of_instrAt {m : OpcodeMap} {s : State} {i : Instr} {ops : List Op} (hi : instrAt m s = some i)
    (h : ∀ op ∈ ops, opAt m s ≠ some op) : i.op ∉ ops :=
  fun hmem => h _ hmem (opAt_of_instrAt hi)

/-- The fetch and the lookup read no register, and no handler but a jump's raises by a register's contents. -/
theorem stepRaises_withRegs {m : OpcodeMap} {s : State} {c : FaultCause}
    (hne : ∀ op ∈ [Op.jmp, .jeq, .jne], opAt m s ≠ some op) (h : StepRaises m s c) (r : Vector Byte 8) :
    StepRaises m { s with regs := r } c := by
  have hfetch : fetch { s with regs := r } = fetch s := fetch_congr rfl rfl
  obtain ⟨o, hf⟩ | hl | ⟨i, hi, hh⟩ := h
  · exact .inl ⟨o, hfetch.trans hf⟩
  · exact .inr (.inl hl)
  · exact .inr (.inr ⟨i, hi, handler_error_withRegs (op_notMem_of_instrAt hi hne) hh r⟩)

/-- A step that dispatches to no jump answers the same, up to the registers, from other register contents. -/
theorem cycle_withRegs {m : OpcodeMap} {s t : State} (hne : ∀ op ∈ [Op.jmp, .jeq, .jne], opAt m s ≠ some op)
    (h : cycle m s = .next t) (r : Vector Byte 8) :
    ∃ q, cycle m { s with regs := r } = .next { t with regs := q } := by
  have hr := running_of_cycle h
  obtain ⟨c, hc, rfl⟩ | ⟨i, u, hi, hh, rfl⟩ := cycle_ends h
  · exact ⟨r, cycle_of_stepRaises (s := { s with regs := r }) hr (stepRaises_withRegs hne hc r)⟩
  · obtain ⟨q, hq⟩ := handler_ok_withRegs (op_notMem_of_instrAt hi hne) hh r
    exact ⟨q, cycle_of_handler_ok (s := { s with regs := r }) hr hi hq⟩

theorem runsAvoiding_jumps_withRegs {m : OpcodeMap} {n : Nat} {s t : State}
    (h : RunsAvoiding m [.jmp, .jeq, .jne] n s t) (r : Vector Byte 8) :
    ∃ q, RunsAvoiding m [.jmp, .jeq, .jne] n { s with regs := r } { t with regs := q } := by
  induction n generalizing s r with
  | zero =>
    rw [show t = s from h]
    exact ⟨r, rfl⟩
  | succ n ih =>
    obtain ⟨hne, u, hu, hrun⟩ := h
    obtain ⟨p, hp⟩ := cycle_withRegs hne hu r
    obtain ⟨q, hq⟩ := ih hrun p
    exact ⟨q, hne, _, hp, hq⟩

end Sys2Proof.Machine
end

section
/-! SUPPORT. The byte-sequence decoder, once: what it accepts (30_encoding.md R70, R71, R79). -/

namespace Sys2Proof

theorem Op.operands_assemble (op : Op) (a b : Byte) :
    (op.assemble a b).operands = [a, b].take op.operandCount := by cases op <;> rfl

/-- The byte sequences that decode to an instruction: an opcode byte with the instruction's operation as its
entry, the operand bytes, and the rest. -/
theorem decodeBytes_eq_ok {m : OpcodeMap} {bytes rest : List Byte} {i : Instr} :
    decodeBytes m bytes = .ok (i, rest) ↔
      ∃ ir, bytes = ir :: (i.operands ++ rest) ∧ m.lookup ir = some i.op := by
  constructor
  · intro h
    cases bytes with
    | nil => cases h
    | cons ir tail =>
      refine ⟨ir, ?_⟩
      cases hl : m.lookup ir with
      | none => simp [decodeBytes, hl] at h
      | some op =>
        rw [decodeBytes] at h
        simp only [hl] at h
        split at h
        case h_4 => cases h
        all_goals
          next hcount =>
            cases h
            simp [Op.operands_assemble, Op.assemble_op, hcount]
  · rintro ⟨ir, rfl, hl⟩
    cases i <;> simp [decodeBytes, hl, Instr.op, Instr.operands, Op.operandCount, Op.assemble]

/-- An instruction whose operand bytes come first among the two is assembled from them. -/
theorem assemble_of_operands {i : Instr} {a b : Byte} {rest : List Byte} (h : [a, b] = i.operands ++ rest) :
    i.op.assemble a b = i := by
  cases i <;> simp_all [Instr.op, Instr.operands, Op.assemble]

/-- The three-byte decoder accepts the first instruction of the three bytes. -/
theorem decode_eq_ok_iff_decodeBytes {m : OpcodeMap} {ir a b : Byte} {i : Instr} :
    decode m ir a b = .ok i ↔ ∃ rest, decodeBytes m [ir, a, b] = .ok (i, rest) := by
  constructor
  · intro h
    obtain ⟨op, hl, rfl⟩ := decode_eq_ok.1 h
    refine ⟨[a, b].drop op.operandCount, decodeBytes_eq_ok.2 ⟨ir, ?_, ?_⟩⟩
    · rw [Op.operands_assemble, List.take_append_drop]
    · rw [Op.assemble_op, hl]
  · rintro ⟨rest, h⟩
    obtain ⟨ir', hbytes, hl⟩ := decodeBytes_eq_ok.1 h
    injection hbytes with hir hops
    exact decode_eq_ok.2 ⟨i.op, hir ▸ hl, assemble_of_operands hops⟩

/-- Under an admissible map an opcode byte decodes, whatever bytes follow, to its operation's instruction. -/
theorem decode_opcode {m : OpcodeMap} (hm : m.admissible = true) (op : Op) (a b : Byte) :
    decode m (m op) a b = .ok (op.assemble a b) :=
  decode_eq_ok.2 ⟨op, OpcodeMap.lookup_self hm op, rfl⟩

/-- A byte that is no operation's opcode is rejected, whatever bytes follow (R79). -/
theorem decode_unknown {m : OpcodeMap} {ir : Byte} (h : ∀ op, m op ≠ ir) (a b : Byte) :
    decode m ir a b = .error (.unknownOpcode ir) :=
  decode_eq_error.2 ⟨OpcodeMap.lookup_eq_none.2 h, rfl⟩

/-- A byte decodes exactly if the lookup finds it. -/
theorem decode_ok_iff {m : OpcodeMap} {ir a b : Byte} : (∃ i, decode m ir a b = .ok i) ↔ ∃ op, m op = ir := by
  rw [← OpcodeMap.lookup_isSome, Option.isSome_iff_exists]
  simp [decode_eq_ok]

theorem Op.operandCount_le (op : Op) : op.operandCount ≤ 2 := by cases op <;> decide

/-- The top two bits of an admissible opcode are an operand count, so never 0b11 (R80). -/
theorem OpcodeMap.toNat_lt {m : OpcodeMap} (hm : m.admissible = true) (op : Op) : (m op).toNat < 192 := by
  have hcount := (OpcodeMap.admissible_iff.1 hm).2 op
  have hle := op.operandCount_le
  rw [countField_eq] at hcount
  omega

/-- The byte values with an entry in an admissible map are, in some order, the ten opcodes. -/
theorem bound_bytes_perm {m : OpcodeMap} (hm : m.admissible = true) :
    ((List.range 256).filter fun n => (m.lookup (BitVec.ofNat 8 n)).isSome).Perm
      ((Op.all.map m).map BitVec.toNat) := by
  have hnodup : ((Op.all.map m).map BitVec.toNat).Nodup :=
    (OpcodeMap.admissible_iff.1 hm).1.map BitVec.toNat_injective
  refine (List.perm_ext_iff_of_nodup (List.nodup_range.filter _) hnodup).2 fun n => ?_
  simp only [List.mem_filter, List.mem_range, OpcodeMap.lookup_isSome, List.mem_map, Op.mem_all, true_and,
    exists_exists_eq_and]
  constructor
  · rintro ⟨hn, op, hop⟩
    exact ⟨op, by rw [hop, BitVec.toNat_ofNat, Nat.mod_eq_of_lt hn]⟩
  · rintro ⟨op, rfl⟩
    exact ⟨(m op).isLt, op, by rw [BitVec.ofNat_toNat, BitVec.setWidth_eq]⟩

/-- 246 of the 256 byte values have no entry in an admissible map (R79). -/
theorem unbound_bytes_length {m : OpcodeMap} (hm : m.admissible = true) :
    ((List.range 256).filter fun n => (m.lookup (BitVec.ofNat 8 n)).isNone).length = 246 := by
  have hbound : ((List.range 256).filter fun n => (m.lookup (BitVec.ofNat 8 n)).isSome).length = 10 :=
    (bound_bytes_perm hm).length_eq
  have hsplit := List.length_eq_length_filter_add (l := List.range 256)
    (fun n => (m.lookup (BitVec.ofNat 8 n)).isSome)
  simp only [hbound, List.length_range, Option.not_isSome] at hsplit
  omega

end Sys2Proof
end


section
/-! PROOFS. The statements of 30_encoding.md. -/

namespace Sys2Proof.Proofs

open Sys2Proof Sys2Proof.Machine

/-- Settles O2: an admissible map finds the instruction's operation by its opcode, and the operand bytes follow. -/
theorem decodeEncodeAgree : Obligations.DecodeEncodeAgree := fun m hm i _ _ =>
  decodeBytes_eq_ok.2 ⟨m i.op, rfl, OpcodeMap.lookup_self hm i.op⟩

/-- Settles O3: the opcode byte of what decodes is the opcode of the operation it is looked up as. -/
theorem encodeDecodeAgree : Obligations.EncodeDecodeAgree := by
  intro m bytes rest i h
  obtain ⟨ir, rfl, hl⟩ := decodeBytes_eq_ok.1 h
  rw [encode, OpcodeMap.lookup_sound hl, List.cons_append]

/-- Settles O4: both decoders look up the first byte and take the operand bytes after it. -/
theorem fetchedBytesDecodeAlike : Obligations.FetchedBytesDecodeAlike := fun _ _ _ _ _ =>
  decode_eq_ok_iff_decodeBytes

/-- Settles O5: the lookup finds exactly the ten opcodes, which are ten different byte values. -/
theorem exactlyTenBytesAreOpcodes : Obligations.ExactlyTenBytesAreOpcodes := fun _ hm =>
  ⟨fun _ _ _ => decode_ok_iff, fun _ a b h => decode_unknown (not_exists.1 h) a b, unbound_bytes_length hm⟩

/-- Settles O6: an opcode of value 192 or more would have the operand count 3. -/
theorem topBitsThreeAreIllegal : Obligations.TopBitsThreeAreIllegal := by
  intro m hm ir a b hge
  refine decode_unknown ?_ a b
  rintro op rfl
  exact Nat.not_le.2 (OpcodeMap.toNat_lt hm op) hge

/-- Settles O1: the default map is admissible, so each opcode byte decodes to its operation's instruction, and the
seven bytes are not among the ten. -/
theorem decodeSampleEncodings : Obligations.DecodeSampleEncodings := by
  have hm : defaultOpcodes.admissible = true := by decide
  refine ⟨hm, fun a b => ?_, ?_⟩
  · have h := fun op => decode_opcode hm op a b
    exact ⟨h .hlt, h .ldi, h .prn, h .mul, h .cmp, h .jmp, h .jeq, h .jne, h .push, h .pop⟩
  · intro a b ir hir
    have hunbound : ∀ ir ∈ ([0x00, 0x02, 0x11, 0x50, 0xA0, 0xC0, 0xFF] : List Byte),
        defaultOpcodes.lookup ir = none := by decide
    exact decode_unknown (OpcodeMap.lookup_eq_none.1 (hunbound ir hir)) a b

end Sys2Proof.Proofs
end

section
/-! SUPPORT. What an instruction, its fault included, leaves unchanged, from what its handler does. -/

namespace Sys2Proof.Machine

/-- An instruction that answers a state took a fault, or completed its handler and moved `pc`. -/
theorem exec_ends {i : Instr} {s t : State} (h : exec i s = .next t) :
    (∃ c, t = takeFault s (some s.ir) c) ∨
    (∃ u, Completes i s u ∧ t = { u with pc := nextPc s.pc u.pc i.op.length i.op.pcClass }) := by
  obtain ⟨c, -, ht⟩ | ⟨u, hu, ht⟩ := exec_inv h
  · exact .inl ⟨c, ht⟩
  · exact .inr ⟨u, completes_of_handler_ok hu, ht⟩

theorem exec_read_eq {i : Instr} {s t : State} (h : exec i s = .next t) {x : Nat}
    (hx : storeAddr s i ≠ some (x : Int)) : t.mem.read x = s.mem.read x := by
  obtain ⟨c, rfl⟩ | ⟨u, hu, rfl⟩ := exec_ends h
  · rfl
  · exact hu.read_eq hx

theorem exec_reg_eq {i : Instr} {s t : State} (h : exec i s = .next t) {j : Nat} (hj : j < 8)
    (hne : ∀ a ∈ writtenRegs i, j ≠ a.toNat) : t.regs[j] = s.regs[j] := by
  obtain ⟨c, rfl⟩ | ⟨u, hu, rfl⟩ := exec_ends h
  · rfl
  · exact hu.reg_eq hj hne

/-- An instruction that writes no register leaves the register file. -/
theorem exec_regs_eq {i : Instr} {s t : State} (h : exec i s = .next t) (hi : writtenRegs i = []) :
    t.regs = s.regs :=
  Vector.ext fun _ hj => exec_reg_eq h hj (by simp [hi])

theorem exec_sp_eq {i : Instr} {s t : State} (h : exec i s = .next t) (hpush : i.op ≠ .push)
    (hpop : i.op ≠ .pop) : t.sp = s.sp := by
  obtain ⟨c, rfl⟩ | ⟨u, hu, rfl⟩ := exec_ends h
  · rfl
  · exact hu.sp_eq hpush hpop

theorem exec_fl_eq {i : Instr} {s t : State} (h : exec i s = .next t) (hcmp : i.op ≠ .cmp) : t.fl = s.fl := by
  obtain ⟨c, rfl⟩ | ⟨u, hu, rfl⟩ := exec_ends h
  · rfl
  · exact hu.fl_eq hcmp

theorem exec_out_eq {i : Instr} {s t : State} (h : exec i s = .next t) (hprn : i.op ≠ .prn) : t.out = s.out := by
  obtain ⟨c, rfl⟩ | ⟨u, hu, rfl⟩ := exec_ends h
  · rfl
  · exact hu.out_eq hprn

theorem exec_ir_eq {i : Instr} {s t : State} (h : exec i s = .next t) : t.ir = s.ir := by
  obtain ⟨c, rfl⟩ | ⟨u, hu, rfl⟩ := exec_ends h
  · rfl
  · exact hu.ir_eq

/-- The run state and the fault record change by HLT or by a fault only (10_state.md R30, R31). -/
theorem exec_engine {i : Instr} {s t : State} (h : exec i s = .next t) :
    (t.runState = s.runState ∧ t.fault = s.fault) ∨
    (i = .hlt ∧ t.runState = .halted ∧ t.fault = s.fault) ∨
    (t.runState = .faulted ∧ ∃ c, t.fault = some { cause := c, pc := s.pc, opcode := some s.ir }) := by
  obtain ⟨c, -, rfl⟩ | ⟨u, hu, rfl⟩ := exec_inv h
  · exact .inr (.inr ⟨rfl, c, rfl⟩)
  · obtain ⟨hfault, hrun⟩ := handler_ok_engine hu
    by_cases hop : i.op = .hlt
    · rw [if_pos hop] at hrun
      exact .inr (.inl ⟨Instr.eq_hlt_of_op hop, hrun, hfault⟩)
    · rw [if_neg hop] at hrun
      exact .inl ⟨hrun, hfault⟩

/-- A sequential instruction that does not fault moves `pc` by its length (R109). -/
theorem exec_pc_of_seq {i : Instr} {s t : State} (h : exec i s = .next t) (hseq : i.op.pcClass = .seq)
    (ht : t.runState ≠ .faulted) : t.pc = s.pc + i.op.length := by
  obtain ⟨c, rfl⟩ | ⟨u, -, rfl⟩ := exec_ends h
  · exact absurd (takeFault_runState _ _ _) ht
  · simp only [hseq, nextPc]

theorem storeAddr_eq_none {i : Instr} (s : State) (hi : i.op ∈ [Op.hlt, .prn, .cmp, .jmp, .jeq, .jne]) :
    storeAddr s i = none := by
  cases i with
  | ldi | mul | push | pop => simp [Instr.op] at hi
  | _ => rfl

theorem writtenRegs_eq_nil {i : Instr} (hi : i.op ∈ [Op.hlt, .prn, .jmp, .jeq, .jne, .push, .pop]) :
    writtenRegs i = [] := by
  cases i with
  | ldi | mul | cmp => simp [Instr.op] at hi
  | _ => rfl

end Sys2Proof.Machine
end

section
/-! PROOFS. The frames of the instructions (the tables of 10_state.md and 20_memory.md), and the sequential
instructions' advance. -/

namespace Sys2Proof.Proofs

open Sys2Proof Sys2Proof.Machine

/-- Settles O22: each of the four stores to one address, and every other reads as before. -/
theorem storingFormsWriteOneByte : Obligations.StoringFormsWriteOneByte := by
  have hframe {i : Instr} {s t : State} {addr : Int} (h : exec i s = .next t) (haddr : storeAddr s i = some addr)
      (x : Nat) (hx : (x : Int) ≠ addr) : t.mem.read x = s.mem.read x :=
    exec_read_eq h (by simpa [haddr] using hx.symm)
  exact ⟨fun _ _ _ _ h => hframe h rfl, fun _ _ _ _ h => hframe h rfl, fun _ _ _ h => hframe h rfl,
    fun _ _ _ h => hframe h rfl⟩

/-- Settles O23: the six have no store address. -/
theorem otherFormsKeepMemory : Obligations.OtherFormsKeepMemory := fun _ s _ hi h _ =>
  exec_read_eq h (by simp [storeAddr_eq_none s hi])

/-- Settles O24: the registers written are those the table names. -/
theorem registerFrame : Obligations.RegisterFrame := by
  refine ⟨fun a b s t h j hj hja => exec_reg_eq h hj ?_, ?_, fun i s t hi h => exec_regs_eq h (writtenRegs_eq_nil hi)⟩
  · simpa [writtenRegs] using hja
  · rintro a b s t (h | h) j hj hja hjb
    · exact exec_reg_eq h hj (by simp [writtenRegs, hja, hjb])
    · exact exec_reg_eq h hj (by simp [writtenRegs, hja, hjb])

/-- Settles O25: one frame lemma for each part of the state. -/
theorem specialStateFrame : Obligations.SpecialStateFrame := fun _ _ _ h =>
  ⟨exec_sp_eq h, exec_fl_eq h, exec_out_eq h, exec_ir_eq h, exec_engine h⟩

/-- Settles O26: the six are of class SEQ, and an instruction is as long as its opcode and operands. -/
theorem sequentialInstructionsAdvanceByLength : Obligations.SequentialInstructionsAdvanceByLength := by
  intro i s t hi h ht
  have hseq : i.op.pcClass = .seq := by
    refine i.op.pcClass_eq_seq.2 ⟨?_, ?_, ?_⟩ <;> intro hop <;> simp [hop] at hi
  rw [exec_pc_of_seq h hseq ht, Instr.operands_length, Op.length]

/-- Settles O27: the frames of `sp` and of the registers, and LDI's write of R7. -/
theorem registerSevenIsNotTheStackPointer : Obligations.RegisterSevenIsNotTheStackPointer := by
  refine ⟨fun image r => ⟨by simp, launch_sp image r⟩, ?_, ?_, fun b s => ?_⟩
  · rintro a b s t (h | h | h) <;> exact exec_sp_eq h nofun nofun
  · rintro a s t (h | h) <;> exact exec_reg_eq h (by decide) nofun
  · exact ⟨_, (ldiMeaning 7 b s).1 (by decide), Vector.getElem_set_self _, rfl⟩

end Sys2Proof.Proofs
end

section
/-! SUPPORT. When a step exists, the causes it can raise, that it does not read the instruction register, and the
exit status after a fault. -/

namespace Sys2Proof.Machine

theorem cycle_of_halted (m : OpcodeMap) {s : State} (h : s.runState = .halted) :
    cycle m s = .fault .runHalted := by
  unfold cycle
  rw [h]

theorem cycle_of_faulted (m : OpcodeMap) {s : State} (h : s.runState = .faulted) :
    cycle m s = .fault .runFaulted := by
  unfold cycle
  rw [h]

/-- In RUNNING an instruction at `pc` ends the step as its `exec` does, `ir` put back if it faulted. -/
theorem cycle_of_exec {m : OpcodeMap} {s t : State} {i : Instr} (hr : s.runState = .running)
    (hi : instrAt m s = some i) (h : exec i (latchIR s (s.mem.read s.pc)) = .next t) :
    cycle m s = .next (if t.runState = .faulted then { t with ir := s.ir } else t) := by
  rw [cycle_of_instrAt hr hi, h, afterExec_next]

/-- In RUNNING a step always answers a state (R101). -/
theorem cycle_next_of_running (m : OpcodeMap) {s : State} (hr : s.runState = .running) :
    ∃ t, cycle m s = .next t := by
  rcases Nat.lt_or_ge 253 s.pc with hp | hp
  · obtain ⟨c, hc⟩ := stepRaises_of_fetch (m := m) hp
    exact ⟨_, cycle_of_stepRaises hr hc⟩
  · cases hl : m.lookup (s.mem.read s.pc) with
    | none => exact ⟨_, cycle_of_lookup_none hr (fetch_of_le s hp) hl⟩
    | some op =>
      have hi : instrAt m s = some _ := instrAt_eq_some.2 ⟨hp, decode_eq_ok.2 ⟨op, hl, rfl⟩⟩
      obtain ⟨t, ht⟩ := exec_next _ (latchIR s (s.mem.read s.pc))
      exact ⟨_, cycle_of_exec hr hi ht⟩

theorem cycle_ne_refused (m : OpcodeMap) (s : State) (r : Refusal) : cycle m s ≠ .refused r := by
  intro h
  cases hr : s.runState with
  | running =>
    obtain ⟨t, ht⟩ := cycle_next_of_running m hr
    cases ht.symm.trans h
  | halted => cases (cycle_of_halted m hr).symm.trans h
  | faulted => cases (cycle_of_faulted m hr).symm.trans h

/-- The fetch raises MemBounds, the lookup DecodeError and a handler a bounds fault, so nothing AluError (R214). -/
theorem StepRaises.kind_ne_aluError {m : OpcodeMap} {s : State} {c : FaultCause} (h : StepRaises m s c) :
    c.kind ≠ .aluError := by
  obtain ⟨o, hf⟩ | ⟨-, -, rfl⟩ | ⟨i, -, hh⟩ := h
  · obtain ⟨-, -, rfl⟩ | ⟨-, -, rfl⟩ := fetch_eq_error.1 hf <;> exact nofun
  · exact nofun
  · obtain ⟨-, hkind | hkind⟩ := handler_error_engine hh <;> rw [hkind] <;> exact nofun

/-- The fetch does not read `ir`, and the handler starts with the fetched opcode in it. -/
theorem stepRaises_withIr {m : OpcodeMap} {s : State} {c : FaultCause} (h : StepRaises m s c) (x : Byte) :
    StepRaises m { s with ir := x } c := by
  have hfetch : fetch { s with ir := x } = fetch s := fetch_congr rfl rfl
  obtain ⟨o, hf⟩ | hl | hh := h
  · exact .inl ⟨o, hfetch.trans hf⟩
  · exact .inr (.inl hl)
  · exact .inr (.inr hh)

/-- From another `ir` a step answers the same state up to `ir`. -/
theorem cycle_withIr {m : OpcodeMap} {s t : State} (h : cycle m s = .next t) (x : Byte) :
    ∃ y, cycle m { s with ir := x } = .next { t with ir := y } := by
  have hr := running_of_cycle h
  obtain ⟨c, hc, rfl⟩ | ⟨i, u, hi, hh, rfl⟩ := cycle_ends h
  · exact ⟨x, cycle_of_stepRaises (s := { s with ir := x }) hr (stepRaises_withIr hc x)⟩
  · exact ⟨u.ir, cycle_of_handler_ok (s := { s with ir := x }) hr hi hh⟩

theorem cycle_ir_eq {m : OpcodeMap} {s t : State} (h : cycle m s = .next t) (ht : t.runState ≠ .faulted) :
    t.ir = s.mem.read s.pc := by
  obtain ⟨c, -, rfl⟩ | ⟨i, u, -, hh, rfl⟩ := cycle_ends h
  · exact absurd (takeFault_runState _ _ _) ht
  · exact (completes_of_handler_ok hh).ir_eq

theorem faultExitStatus_ne_zero : Config.faultExitStatus ≠ 0 := by
  unfold Config.faultExitStatus
  split
  · decide
  · assumption

end Sys2Proof.Machine
end

section
/-! PROOFS. The statements of 40_execution_engine.md, of 60_exceptions.md and of the ALU's fault, and HLT. -/

namespace Sys2Proof.Proofs

open Sys2Proof Sys2Proof.Machine

/-- Settles O10: the 8-bit result is the sum modulo 256, and the table of `alu_op` holds MUL, CMP and none. -/
theorem aluAddsButNothingSelectsAdd : Obligations.AluAddsButNothingSelectsAdd :=
  ⟨fun _ _ => ⟨_, rfl, BitVec.toNat_ofNat _ 8⟩, fun op => by cases op <;> decide⟩

/-- Settles O11: the ALU's other cases are errors, and a record is that of a fault the step raised. -/
theorem aluErrorIsRaisedByNoProgram : Obligations.AluErrorIsRaisedByNoProgram := by
  refine ⟨fun op x y hadd hmul hcmp => ?_, fun m s t r h hs hr => ?_⟩
  · cases op with
    | add => exact absurd rfl hadd
    | mul => exact absurd rfl hmul
    | cmp => exact absurd rfl hcmp
    | none => rfl
    | other label => rfl
  · obtain ⟨hraise, -, -⟩ := (cycle_fault_eq_some hs h).1 hr
    exact hraise.kind_ne_aluError

/-- Settles O12: the handler of HLT sets the run state, and the loop moves `pc`. -/
theorem hltHalts : Obligations.HltHalts := fun s =>
  ⟨_, exec_seq_of_handler_ok (i := .hlt) (s := s) rfl rfl, rfl, rfl, rfl, rfl, rfl, rfl, rfl, rfl⟩

/-- Settles O28: an instruction always answers a state, and the bytes at `pc` are the ones the fetch delivers. -/
theorem stepRunsDecodedInstruction : Obligations.StepRunsDecodedInstruction := by
  refine ⟨fun _ => rfl, fun m s i hr hp hd => ?_⟩
  obtain ⟨t, ht⟩ := exec_next i (latchIR s (s.mem.read s.pc))
  exact ⟨t, ht, cycle_of_exec hr (instrAt_eq_some.2 ⟨hp, hd⟩) ht⟩

/-- Settles O29: each run state has its own answer. -/
theorem stepsExistExactlyWhileRunning : Obligations.StepsExistExactlyWhileRunning := fun m s =>
  ⟨⟨cycle_next_of_running m, fun ⟨_, h⟩ => running_of_cycle h⟩, cycle_of_halted m, cycle_of_faulted m,
    cycle_ne_refused m s⟩

/-- Settles O31: a step that ends FAULTED did not complete its instruction, so it took a fault and nothing else. -/
theorem faultsArePrecise : Obligations.FaultsArePrecise := by
  intro m s t h ht
  obtain ⟨c, -, rfl⟩ | ⟨i, u, -, hh, rfl⟩ := cycle_ends h
  · exact ⟨c, rfl⟩
  · have hne : u.runState ≠ .faulted := runState_ne_faulted_of_handler_ok (running_of_cycle h) hh
    exact absurd ht hne

/-- Settles O35: the kind is the cause's constructor, and the code the kind's number. -/
theorem faultKindsAndCodes : Obligations.FaultKindsAndCodes := by
  rintro ⟨c, pc, o⟩
  refine ⟨?_, ?_, ?_, ?_⟩ <;> rintro x rfl <;> exact ⟨rfl, rfl⟩

/-- Settles O36: the status after a fault is never the draw 0. -/
theorem exitStatus : Obligations.ExitStatus := by
  intro s
  refine ⟨fun h => ?_, fun h => ?_, fun h => ⟨_, faultExitStatus_ne_zero, ?_⟩⟩ <;> rw [State.exitStatus, h]

/-- Settles O41: the handler starts with the fetched opcode in `ir` and keeps it there. -/
theorem irIsInvisible : Obligations.IrIsInvisible := by
  refine ⟨fun m s t => cycle_ir_eq, fun m s t x h => ?_⟩
  obtain ⟨y, hy⟩ := cycle_withIr h x
  exact ⟨{ t with ir := y }, hy, rfl⟩

end Sys2Proof.Proofs
end

section
/-! PROOFS. What steps and runs keep: the invariant, all but the registers where no jump runs, and the flag
register between compares. -/

namespace Sys2Proof.Proofs

open Sys2Proof Sys2Proof.Machine

/-- Settles O39: a fault leaves memory, `pc` and `sp` alone and fills the record; an instruction that completes
keeps each bound. -/
theorem stepKeepsInvariant : Obligations.StepKeepsInvariant := by
  intro m s t hs h
  obtain ⟨c, -, rfl⟩ | ⟨i, u, hi, hh, rfl⟩ := cycle_ends h
  · exact takeFault_keeps_inv hs _ c
  · exact completes_keeps_inv hs (running_of_cycle h) hi hh

/-- Settles O42: a run without jumps is repeated step by step from the other register contents. -/
theorem registersAreInvisibleWithoutJumps : Obligations.RegistersAreInvisibleWithoutJumps := by
  intro m n s t r h
  obtain ⟨q, hq⟩ := runsAvoiding_jumps_withRegs h r
  exact ⟨{ t with regs := q }, hq, rfl⟩

/-- Settles O43: a comparison never gives NONE, and only CMP writes the flag register. -/
theorem flagsPersistUntilTheNextCompare : Obligations.FlagsPersistUntilTheNextCompare := by
  refine ⟨fun m s t h ht hop => ?_, fun m n s t => runsAvoiding_cmp_fl_eq⟩
  obtain ⟨i, hi, hcmp⟩ := opAt_eq_some_iff_instrAt.1 hop
  obtain ⟨a, b, rfl⟩ := Instr.eq_cmp_of_op hcmp
  rw [cycle_cmp_fl h ht hi]
  exact compareFlag_mem _ _

end Sys2Proof.Proofs
end

section
/-! SUPPORT. The loaded image, and the invariant at the start of a run (70_reset_and_hazards.md R240, R241). -/

namespace Sys2Proof.Machine

theorem Memory.place_of_lt (m : Memory) {a : Nat} (v : Byte) (h : a < 256) : m.place a v = m.write a v := if_pos h

theorem Memory.read_place_of_ne (m : Memory) {a b : Nat} (v : Byte) (h : b ≠ a) : (m.place a v).read b = m.read b := by
  unfold Memory.place
  split
  · exact Memory.read_write_of_ne m v h
  · rfl

/-- Loading changes no address below the base. -/
theorem Memory.read_load_of_lt (m : Memory) {base a : Nat} (vs : List Byte) (h : a < base) :
    (m.load base vs).read a = m.read a := by
  induction vs generalizing m base with
  | nil => rfl
  | cons v vs ih => rw [Memory.load, ih _ (by omega), Memory.read_place_of_ne m v (by omega)]

/-- Bytes loaded where all of them fit read back from the base up. -/
theorem Memory.read_load {m : Memory} (hm : m.wf = true) {base : Nat} {vs : List Byte}
    (hfit : base + vs.length ≤ 256) {k : Nat} (hk : k < vs.length) : (m.load base vs).read (base + k) = vs[k] := by
  induction vs generalizing m base k with
  | nil => cases hk
  | cons v vs ih =>
    simp only [List.length_cons] at hfit hk
    rw [Memory.load]
    cases k with
    | zero =>
      rw [Memory.read_load_of_lt _ vs (by omega), Memory.place_of_lt m v (by omega)]
      exact Memory.read_write_self base v hm
    | succ k =>
      have htail := ih (Memory.place_wf base v hm) (base := base + 1) (by omega) (Nat.lt_of_succ_lt_succ hk)
      rwa [Nat.add_right_comm] at htail

/-- Every launch starts with the invariant. -/
theorem launch_inv (image : List Byte) (r : Vector Byte 7) : MachineInv (State.launch image r) :=
  { mem_wf := Memory.load_wf 0 image rfl
    pc_le := by simp
    sp_le := by simp
    fault_iff := by simp }

end Sys2Proof.Machine
end

section
/-! PROOFS. The statements of reset and launch. -/

namespace Sys2Proof.Proofs

open Sys2Proof Sys2Proof.Machine

/-- Settles O37: the image is loaded into canonical memory and fits it. -/
theorem launchGivesResetValues : Obligations.LaunchGivesResetValues := by
  refine ⟨fun image r himage => ⟨fun k hk => ?_, fun k hk => ?_, ?_, rfl, rfl, rfl, rfl, rfl, rfl, launch_inv image r⟩,
    [], Vector.replicate 7 0, rfl, reset_eq_launch⟩
  · have hread := Memory.read_load (m := []) rfl (base := 0) (by simpa [imageWellFormed] using himage) hk
    rwa [Nat.zero_add] at hread
  · simp [Vector.getElem_push_lt hk]
  · simp

/-- Settles O38: reset is a launch. -/
theorem resetHasInvariant : Obligations.ResetHasInvariant := by
  rw [Obligations.ResetHasInvariant, reset_eq_launch]
  exact launch_inv _ _

end Sys2Proof.Proofs
end

section
/-! SUPPORT. The output along a run, a conditional jump as a step, and the fetch of a byte just stored. -/

namespace Sys2Proof.Machine

theorem Completes.out_prefix {i : Instr} {s u : State} (h : Completes i s u) : s.out <+: u.out := by
  cases h with
  | prn => exact List.prefix_append _ _
  | _ => exact List.prefix_rfl

theorem cycle_out_prefix {m : OpcodeMap} {s t : State} (h : cycle m s = .next t) : s.out <+: t.out := by
  obtain ⟨c, -, rfl⟩ | ⟨i, u, -, hh, rfl⟩ := cycle_ends h
  · exact List.prefix_rfl
  · exact (completes_of_handler_ok hh).out_prefix

theorem runs_out_prefix {m : OpcodeMap} {n : Nat} {s t : State} (h : Runs m n s t) : s.out <+: t.out := by
  induction n generalizing s with
  | zero => rw [show t = s from h]
  | succ n ih =>
    obtain ⟨u, hu, hrun⟩ := h
    exact (cycle_out_prefix hu).trans (ih hrun)

/-- A conditional jump whose handler jumps under the condition `P` and does nothing otherwise: the step goes to the
target where `P` holds and the target is not its own address, and falls through otherwise (R111). -/
theorem cycle_cond {m : OpcodeMap} {u : State} {i : Instr} {j : Byte} {P : Prop} [Decidable P] (hj : j.toNat < 8)
    (hr : u.runState = .running) (hi : instrAt m u = some i) (hcond : i.op.pcClass = .cond)
    (htaken : P → handler i (latchIR u (u.mem.read u.pc)) = jumpTo (latchIR u (u.mem.read u.pc)) j)
    (hnot : ¬P → handler i (latchIR u (u.mem.read u.pc)) = .ok (latchIR u (u.mem.read u.pc))) :
    ∃ v, cycle m u = .next v ∧
      v.pc = if P ∧ (u.mem.read u.regs[j.toNat].toNat).toNat ≠ u.pc
        then (u.mem.read u.regs[j.toNat].toNat).toNat else u.pc + i.op.length := by
  by_cases hP : P
  · refine ⟨_, cycle_of_handler_ok hr hi ((htaken hP).trans (jumpTo_of_lt _ hj)), ?_⟩
    by_cases hself : (u.mem.read u.regs[j.toNat].toNat).toNat = u.pc <;> simp [hcond, nextPc, hP, hself]
  · refine ⟨_, cycle_of_handler_ok hr hi (hnot hP), ?_⟩
    simp [hcond, nextPc, hP]

theorem compareFlag_eq_equal_iff {x y : Byte} : compareFlag x y = .equal ↔ x = y := by
  obtain ⟨-, heq, -, -⟩ := compareFlag_spec x y
  rw [heq, BitVec.toNat_inj]

theorem opAt_of_read {m : OpcodeMap} {s : State} {b : Byte} (hp : s.pc ≤ 253) (hb : s.mem.read s.pc = b) :
    opAt m s = m.lookup b := by rw [opAt, if_pos hp, hb]

/-- A step at the byte `b` without an entry takes the fault DecodeError(`b`) and nothing else. -/
theorem cycle_of_read_unknown {m : OpcodeMap} {s : State} {b : Byte} (hr : s.runState = .running) (hp : s.pc ≤ 253)
    (hb : s.mem.read s.pc = b) (hop : ∀ op, m op ≠ b) : cycle m s = .next (takeFault s (some b) (.decodeError b)) := by
  subst hb
  exact cycle_of_lookup_none hr (fetch_of_le s hp) (OpcodeMap.lookup_eq_none.2 hop)

end Sys2Proof.Machine
end

section
/-! PROOFS. The statements about runs and about two instructions in a row. -/

namespace Sys2Proof.Proofs

open Sys2Proof Sys2Proof.Machine

/-- Settles O44: the flag at the branch is the comparison's result, which the run in between kept. -/
theorem branchesReflectTheLatestCompare : Obligations.BranchesReflectTheLatestCompare := by
  intro m n s s' u a b j hj hi h hs' hrun hu
  have hfl : u.fl = compareFlag (s.mem.read a.toNat) (s.mem.read b.toNat) :=
    (runsAvoiding_cmp_fl_eq hrun).trans (cycle_cmp_fl h (by simp [hs']) hi)
  have heq : u.fl = .equal ↔ s.mem.read a.toNat = s.mem.read b.toNat := by rw [hfl, compareFlag_eq_equal_iff]
  refine ⟨fun hjeq => ?_, fun hjne => ?_⟩
  · exact cycle_cond hj hu hjeq rfl (fun hcells => handler_jeq_of_equal j (heq.2 hcells))
      (fun hcells => handler_jeq_of_ne j (mt heq.1 hcells))
  · refine cycle_cond hj hu hjne rfl (fun hcells => handler_jne_of_less_or_greater j ?_)
      (fun hcells => handler_jne_of_equal_or_none j (.inl (heq.2 (not_not.1 hcells))))
    obtain he | hg | hl := compareFlag_mem (s.mem.read a.toNat) (s.mem.read b.toNat)
    · exact absurd (compareFlag_eq_equal_iff.1 he) hcells
    · exact .inr (hfl.trans hg)
    · exact .inl (hfl.trans hl)

/-- Settles O45: each step leaves the output or appends to it. -/
theorem outputOnlyGrows : Obligations.OutputOnlyGrows := by
  intro m n s t h
  obtain ⟨more, hmore⟩ := runs_out_prefix h
  exact ⟨more, hmore.symm⟩

/-- Settles O46: PRN emits the cell that LDI wrote. -/
theorem ldiThenPrnEmitsTheImmediate : Obligations.LdiThenPrnEmitsTheImmediate := by
  intro r b s hwf hr
  refine ⟨_, (ldiMeaning r b s).1 hr, fun u hu => ⟨_, prnMeaning r u, ?_⟩⟩
  rw [hu, Memory.read_write_self _ _ hwf]

/-- Settles O47: POP reads the cell that PUSH wrote, and writes back to `M[r]` the byte that PUSH read there. -/
theorem pushThenPopRestores : Obligations.PushThenPopRestores := by
  intro r s hwf hlo hhi
  have hpushed : (s.mem.write (s.sp - 1) (s.mem.read r.toNat)).read (s.sp - 1) = s.mem.read r.toNat :=
    Memory.read_write_self _ _ hwf
  have hwf' : (s.mem.write (s.sp - 1) (s.mem.read r.toNat)).wf = true := Memory.write_wf _ (by omega) hwf
  refine ⟨_, _, (pushMeaning r s).1 hlo hhi, (popMeaning r _).1 (by simp only; omega), Nat.sub_add_cancel hlo, ?_, ?_⟩
  · rw [Memory.read_write_self _ _ hwf', hpushed]
  · rw [Memory.read_write hwf', hpushed, ite_self]

/-- Settles O48: after the LDI `pc` is at the cell it wrote, and the next fetch reads the byte there. -/
theorem ldiCanRewriteTheNextOpcode : Obligations.LdiCanRewriteTheNextOpcode := by
  intro m s r b hwf hrun hr hrpc hi
  have hread : (s.mem.write r.toNat b).read (s.pc + 3) = b := by
    rw [← hrpc, Memory.read_write_self _ _ hwf]
  have hle : s.pc + 3 ≤ 253 := by omega
  refine ⟨_, cycle_of_handler_ok hrun hi (handleLdi_of_lt _ b hr), rfl, opAt_of_read hle hread, fun hop => ?_⟩
  exact ⟨_, cycle_of_read_unknown hrun hle hread hop, rfl⟩

end Sys2Proof.Proofs
end
